-- ==== Sys2Proof/Word.lean ====
section
/-! DEFINITION. The bit vectors of CSUM16 (spec/00_scope.md R6, R8): every value is unsigned. -/

namespace Sys2Proof

/-- An octet: "an 8-bit byte" (R6). -/
abbrev Octet := BitVec 8

/-- A summed unit, a RESULT or a checksum: 16 bits (R6). -/
abbrev Word := BitVec 16

/-- The accumulator's width `ACCW`, and the width of an IMM32: 32 bits (R6, R64). -/
abbrev Acc32 := BitVec 32

end Sys2Proof
end

