-- ==== Sys2Proof/Config.lean ====
section
/-! DEFINITION. The implementation parameters of CSUM16 (spec/00_scope.md R6). The spec leaves none open, so every one is a
number and there is no free value. -/

namespace Sys2Proof.Config

/-- The largest value of the 32-bit running sum (R6 `ACCW`, R84). -/
def accMax : Nat := 0xFFFFFFFF

/-- The carry fold goes on while the sum is above this (R6, R100). -/
def foldThreshold : Nat := 0xFFFF

/-- VERIFY compares the folded sum with this (R6, R104). -/
def verifyConstant : Word := 0xFFFF#16

/-- What a zero complement is replaced by (R6, R102). -/
def zeroReplacement : Word := 0xFFFF#16

/-- The checksum value that says "absent" (R6, R107). -/
def absentSentinel : Word := 0x0000#16

/-- The largest LEN of a SUMW: 16 bits (R6, R63). -/
def maxSpan : Nat := 65535

/-- The number of octets of the readback window (R6, R41). -/
def readbackOctets : Nat := 8

end Sys2Proof.Config
end

