-- ==== Sys2Proof/Machine/Operands.lean ====
section
/-! DEFINITION. Byte order and operand forms: big-endian assembly of LEN and IMM32 (spec/30_encoding.md R63, R64), the octets
of a multi-octet value (spec/20_memory.md R42, spec/41_finalize.md R108), and a span read as words (spec/20_memory.md R43). -/

namespace Sys2Proof.Machine

/-- Two octets as a 16-bit value, the first one high (R42, R43, R63). -/
def be16 (hi lo : Octet) : Word := hi ++ lo

/-- Four octets as a 32-bit value, the first one highest (R42, R64). -/
def be32 (o1 o2 o3 o4 : Octet) : Acc32 := o1 ++ o2 ++ o3 ++ o4

/-- The two octets of a 16-bit value, high octet first (R42, R108). -/
def octets16 (v : Word) : List Octet := [v.extractLsb' 8 8, v.extractLsb' 0 8]

/-- The four octets of a 32-bit value, highest octet first (R42, R41 offsets 0 to 3). -/
def octets32 (v : Acc32) : List Octet :=
  [v.extractLsb' 24 8, v.extractLsb' 16 8, v.extractLsb' 8 8, v.extractLsb' 0 8]

/-- `Words(d)` (R43): the octets of a span in pairs from its own start, the first of each pair high; a last octet that has no
partner is the high octet of a word whose low octet is zero. -/
def words : List Octet → List Word
  | [] => []
  | [o] => [be16 o 0x00#8]
  | o₀ :: o₁ :: d => be16 o₀ o₁ :: words d

/-- `SumWords(init, d)` (spec/40_accumulate.md R83): an exact natural sum, with no fold and no wrap. -/
def sumWords (init : Nat) (d : List Octet) : Nat :=
  init + ((words d).map BitVec.toNat).sum

end Sys2Proof.Machine
end

