-- ==== Sys2Proof/Syntax.lean ====
section
/-! DEFINITION. The commands of CSUM16: one constructor per row of spec/opcode_table.json (spec/30_encoding.md R62). -/

namespace Sys2Proof

/-- A command with its assembled operands (R62). -/
inductive Instr
  /-- CLR: clear the accumulator (R80). -/
  | clr
  /-- LDACC imm: load the accumulator (R81). -/
  | ldacc (imm : Acc32)
  /-- SUMW d: sum a span into the accumulator (R82); LEN is the span's length. -/
  | sumw (d : List Octet)
  /-- COMPUTE: produce the checksum (R103). -/
  | compute
  /-- VERIFY: self-check (R104). -/
  | verify
  deriving DecidableEq, Repr

/-- The three command formats (R61). -/
inductive Format
  /-- `op` alone. -/
  | f0
  /-- `op` and a 32-bit immediate. -/
  | fi
  /-- `op`, a 16-bit LEN and LEN span octets. -/
  | fs
  deriving DecidableEq, Repr

end Sys2Proof
end

