-- ==== Sys2Proof/WellFormed.lean ====
section
/-! DEFINITION. Which commands an encoding can carry (spec/30_encoding.md R63, R68). The immediate is 32 bits and an octet is
8 bits by their types, so the span's length is the one thing to check. -/

namespace Sys2Proof

/-- A SUMW carries at most 65535 octets, since LEN is 16 bits (R63); the assembler refuses a longer list (R68). -/
def Instr.wf : Instr → Bool
  | .clr => true
  | .ldacc _ => true
  | .sumw d => decide (d.length ≤ Config.maxSpan)
  | .compute => true
  | .verify => true

end Sys2Proof
end

