-- ==== Sys2Proof/Decode.lean ====
section
/-! DEFINITION. Decoding, total on every octet stream, and the encoder written from the same tables
(spec/30_encoding.md R60 to R67). Nothing but the octets is looked at (R66). -/

namespace Sys2Proof

open Machine (be16 be32 octets16 octets32)

/-- The opcode octets (R62). -/
def opClr : Octet := 0x01#8
def opLdacc : Octet := 0x02#8
def opSumw : Octet := 0x03#8
def opCompute : Octet := 0x04#8
def opVerify : Octet := 0x05#8

/-- What the front of the unconsumed stream holds (R66, R67, R71). -/
inductive Decoded
  /-- No octet at all. -/
  | empty
  /-- A command of which octets are still missing: a hold, not a fault (R71). -/
  | incomplete
  /-- An illegal opcode octet (R67). -/
  | illegal (op : Octet)
  /-- A complete command and the octets after it. -/
  | command (i : Instr) (rest : List Octet)
  deriving DecidableEq, Repr

/-- The format of a command (R61). -/
def Instr.format : Instr → Format
  | .clr => .f0
  | .ldacc _ => .fi
  | .sumw _ => .fs
  | .compute => .f0
  | .verify => .f0

/-- The length of a command in octets (R61): 1, 5 or 3 + LEN. -/
def Instr.length : Instr → Nat
  | .clr => 1
  | .ldacc _ => 5
  | .sumw d => 3 + d.length
  | .compute => 1
  | .verify => 1

/-- How a decoder learns a command's length (R66): from the opcode octet alone, or from the first three octets for format FS.
`none`: those octets are not there yet. -/
def commandLength : List Octet → Option Nat
  | [] => none
  | op :: r =>
    if op = opLdacc then some 5
    else if op = opSumw then
      match r with
      | o₁ :: o₂ :: _ => some (3 + (be16 o₁ o₂).toNat)
      | _ => none
    else some 1

/-- The operand octets of LDACC (R64). -/
def decodeLdacc : List Octet → Decoded
  | o₁ :: o₂ :: o₃ :: o₄ :: rest => .command (.ldacc (be32 o₁ o₂ o₃ o₄)) rest
  | _ => .incomplete

/-- The operand octets of SUMW: LEN, then LEN span octets of any value (R63, R65). -/
def decodeSumw : List Octet → Decoded
  | o₁ :: o₂ :: r =>
    if (be16 o₁ o₂).toNat ≤ r.length then
      .command (.sumw (r.take (be16 o₁ o₂).toNat)) (r.drop (be16 o₁ o₂).toNat)
    else .incomplete
  | _ => .incomplete

/-- The command at the front of a stream (R60, R62, R66, R67). -/
def decode : List Octet → Decoded
  | [] => .empty
  | op :: r =>
    if op = opClr then .command .clr r
    else if op = opLdacc then decodeLdacc r
    else if op = opSumw then decodeSumw r
    else if op = opCompute then .command .compute r
    else if op = opVerify then .command .verify r
    else .illegal op

/-- The octets of a command (R61, R62, R68); meant for a well-formed one (log entry 7, DESIGN CHOICE, safe). -/
def encode : Instr → List Octet
  | .clr => [opClr]
  | .ldacc imm => opLdacc :: octets32 imm
  | .sumw d => opSumw :: (octets16 (BitVec.ofNat 16 d.length) ++ d)
  | .compute => [opCompute]
  | .verify => [opVerify]

/-- The octets of several commands, back to back (R60). -/
def encodeAll : List Instr → List Octet
  | [] => []
  | i :: is => encode i ++ encodeAll is

/-- Octet `k` of an instruction whose bits are `w`, numbered as spec/opcode_table.json numbers them: bit 0 is the least
significant bit of octet 0, and every bit from `nbits` up is 0. -/
def wordOctet (nbits w k : Nat) : Octet := BitVec.ofNat 8 ((w % 2 ^ nbits) >>> (8 * k))

/-- The octets of that instruction in stream order, as many as the command is long (R66); the octets above `nbits` are 0. -/
def layoutWord (nbits w : Nat) : List Octet :=
  match commandLength [wordOctet nbits w 0, wordOctet nbits w 1, wordOctet nbits w 2] with
  | some n => (List.range n).map (wordOctet nbits w)
  | none => []

/-- What `decode` reads from an instruction whose bits are `w`; `none` for an illegal opcode octet. -/
def decodeTableWord (nbits w : Nat) : Option Instr :=
  match decode (layoutWord nbits w) with
  | .command i _ => some i
  | .empty => none
  | .incomplete => none
  | .illegal _ => none

end Sys2Proof
end

