-- ==== Sys2Proof/Machine/State.lean ====
section
/-! DEFINITION. The architectural state of one CSUM16 instance, "exactly this tuple" (spec/10_state.md R20), its value after
reset (R32), and the reasons a step or a host access can stop. -/

namespace Sys2Proof.Machine

/-- The fault codes of `STATUS.ERR` (R26). The code 0b11 is never produced, and "a model's ERR type may omit it"
(spec/93_implementation_defined.md I10). -/
inductive ErrCode
  /-- 0b00: no fault since reset. -/
  | none
  /-- 0b01: an opcode octet outside 0x01 to 0x05 was decoded. -/
  | illegalOpcode
  /-- 0b10: a SUMW's sum exceeded 0xFFFFFFFF. -/
  | accOverflow
  deriving DecidableEq, Repr

/-- `STATUS` (R23). The host reads it as the octet `Status.toOctet` and cannot write it; its reserved bits read 0 and are never
written, so they are no field here (log entry 3, DEDUCED, safe). -/
structure Status where
  /-- Bit 0, `RV`: a COMPUTE has completed since reset (R24). -/
  rv : Bool
  /-- Bit 1, `VV`: a VERIFY has completed since reset (R25). -/
  vv : Bool
  /-- Bit 2, `VOK`: the outcome of the last completed VERIFY (R25). -/
  vok : Bool
  /-- Bits 5:4, `ERR`: the fault code (R26). -/
  err : ErrCode
  deriving DecidableEq, Repr

/-- The state of R20: "these fields and no others"; there is no data memory (R28, R40; log entry 16, DEDUCED, safe). -/
structure State where
  /-- `ACC`: the running sum before folding (R21). -/
  acc : Acc32
  /-- `RESULT`: the checksum of the last completed COMPUTE (R22). -/
  result : Word
  /-- `STATUS` (R23). -/
  status : Status
  /-- `FOP`: the opcode octet of the command that faulted (R27). -/
  fop : Octet
  /-- `POS`: the octets consumed since reset, an unbounded natural the host cannot read (R29). -/
  pos : Nat
  /-- The unconsumed octets of the command stream, the next one first (spec/20_memory.md R40; log entry 4, DEDUCED, safe). -/
  stream : List Octet
  deriving DecidableEq, Repr

/-- The state after reset (R32); every value is the spec's. -/
def State.reset : State :=
  { acc := 0x00000000#32
    result := 0x0000#16
    status := { rv := false, vv := false, vok := false, err := .none }
    fop := 0x00#8
    pos := 0
    stream := [] }

/-- Why the engine has NO enabled step (spec/70_reset_and_hazards.md R149; log entry 1,
DESIGN CHOICE, safe). Raised by `step` alone, in states where
the hardware takes no step either: nothing is consumed and nothing changes. All three are safe. The two faults of the machine
itself (R121) are not here: taking one is a next state (`State.enterFault`). -/
inductive Fault
  /-- `ERR = NONE` and no unconsumed octet: "waiting for the host" (R71), a run's successful end (R149). Raised by `step`; safe. -/
  | idle
  /-- `ERR = NONE` and an incomplete command: a hold that only a host append lifts (R71, R149). Raised by `step`; safe. -/
  | incompleteCommand
  /-- `ERR` is not NONE: the fault state, which only reset leaves (spec/60_exceptions.md R123). Raised by `step`; safe. -/
  | engineFaulted
  deriving DecidableEq, Repr

/-- Why an access is refused. -/
inductive Refusal
  /-- An instruction of the table without a meaning yet, raised by `exec`'s arms alone; safe. No arm of this model raises it. -/
  | notModelled (mnemonic : String)
  /-- A host read at an offset that does not exist: "A model refuses a host read there" (spec/20_memory.md R41). Raised by
  `State.readback`; safe. -/
  | noReadbackOffset (offset : Nat)
  /-- A move at an instance that the platform does not hold (spec/60_exceptions.md R129, log entry 11). Raised by
  `platformMove`; safe. -/
  | noSuchInstance (index : Nat)
  deriving DecidableEq, Repr

end Sys2Proof.Machine
end

