-- ==== Sys2Proof/Machine/Flags.lean ====
section
/-! DEFINITION. The functions behind the flags and the result: the carry fold, the finishing function, the verdict
(spec/41_finalize.md R100, R102, R104), the writes of `STATUS` fields, and `STATUS` as the host reads it (spec/10_state.md R23). -/

namespace Sys2Proof.Machine

/-- One pass of the fold's loop body: `(sum & 0xFFFF) + (sum >> 16)` (R100). -/
def foldStep (sum : Nat) : Nat := (sum &&& 0xFFFF) + (sum >>> 16)

/-- The loop of R100, `while sum > 0xFFFF`, cut off after `fuel` passes. -/
def foldLoop : Nat → Nat → Nat
  | 0, sum => sum
  | fuel + 1, sum => if Config.foldThreshold < sum then foldLoop fuel (foldStep sum) else sum

/-- `Fold` (R100), from a 32-bit value to a 16-bit value. Two passes are enough: "the loop body runs 0, 1 or 2 times" (R101;
log entry 6, DEDUCED, safe). -/
def fold (acc : Acc32) : Word := BitVec.ofNat 16 (foldLoop 2 acc.toNat)

/-- `Finish` (R102): the one's complement, with a zero result mapped to all-ones. -/
def finish (f : Word) : Word := if ~~~f = 0x0000#16 then Config.zeroReplacement else ~~~f

/-- The verdict of VERIFY: `Fold(ACC) == 0xFFFF` (R104). -/
def verdict (acc : Acc32) : Bool := fold acc == Config.verifyConstant

/-- A checksum value is absent exactly when it is 0x0000 (R107). -/
def isAbsent (v : Word) : Bool := v == Config.absentSentinel

/-- The two bits of an ERR code (R26). -/
def ErrCode.bits : ErrCode → BitVec 2
  | .none => 0b00#2
  | .illegalOpcode => 0b01#2
  | .accOverflow => 0b10#2

/-- `STATUS` as an octet (R23): bits 7:6 zero, 5:4 ERR, 3 zero, 2 VOK, 1 VV, 0 RV. -/
def Status.toOctet (st : Status) : Octet :=
  0b00#2 ++ st.err.bits ++ 0b0#1 ++ BitVec.ofBool st.vok ++ BitVec.ofBool st.vv ++ BitVec.ofBool st.rv

/-- `STATUS.RV <- 1` (R24, R103). -/
def Status.setRv (st : Status) : Status := { st with rv := true }

/-- `STATUS.VOK <- b` and `STATUS.VV <- 1` (R25, R104). -/
def Status.setVerdict (b : Bool) (st : Status) : Status := { st with vok := b, vv := true }

/-- `STATUS.ERR <- code` (R26, spec/60_exceptions.md R122). -/
def Status.setErr (code : ErrCode) (st : Status) : Status := { st with err := code }

end Sys2Proof.Machine
end

