-- ==== Sys2Proof/Machine/Ops.lean ====
section
/-! DEFINITION. The named operations on the state: the stream primitives and register writes (spec/00_scope.md R10), fault
entry (spec/60_exceptions.md R122), and the placing of an instruction where the next step finds it. -/

namespace Sys2Proof.Machine

/-- `Avail`: the number of unconsumed octets (R10). -/
def State.avail (s : State) : Nat := s.stream.length

/-- `Peek(k)`: the octet at offset `k` of the unconsumed stream, defined only when it is there (R10). -/
def State.peek (k : Nat) (s : State) : Option Octet := s.stream[k]?

/-- `Consume(n)`: removes the first `n` unconsumed octets and adds `n` to `POS` (R10). -/
def State.consume (n : Nat) (s : State) : State :=
  { s with pos := s.pos + n, stream := s.stream.drop n }

/-- `ACC <- v` (R10). -/
def State.setAcc (v : Acc32) (s : State) : State := { s with acc := v }

/-- `RESULT <- v` (R10). -/
def State.setResult (v : Word) (s : State) : State := { s with result := v }

/-- A write of `STATUS` fields. -/
def State.mapStatus (f : Status → Status) (s : State) : State := { s with status := f s.status }

/-- Fault entry, `raise Fault(code, op)` (spec/60_exceptions.md R122): ERR and FOP are written and nothing else is; there is no
saved program counter, mode, mask or vector. There is no return from a fault: only reset leaves the fault state (R125). -/
def State.enterFault (code : ErrCode) (op : Octet) (s : State) : State :=
  { s with status := s.status.setErr code, fop := op }

/-- Decoding an illegal opcode octet: it is consumed, and ILLEGAL_OPCODE is taken with the octet in FOP (R71, R121). -/
def State.takeIllegal (op : Octet) (s : State) : State :=
  (s.consume 1).enterFault .illegalOpcode op

/-- Puts octets in front of the unconsumed stream, where `step` decodes next, in an engine that is not in the fault state
(log entry 2, DESIGN CHOICE, safe). In the machine a program gets there by the host's appends; this is only how a given
instruction is placed. -/
def State.placeAtFetch (os : List Octet) (s : State) : State :=
  if s.status.err = .none then { s with stream := os ++ s.stream }
  else { s with stream := os ++ s.stream, status := s.status.setErr .none, fop := 0x00#8 }

end Sys2Proof.Machine
end

