-- ==== Sys2Proof/Machine/Accumulate.lean ====
section
/-! DEFINITION. The meanings of CLR, LDACC and SUMW (spec/40_accumulate.md R80 to R84). As in the pseudocode of
spec/30_encoding.md R71, `step` has already consumed the command's octets and has checked that `ERR = NONE` (log entry 5,
DEDUCED, safe). -/

namespace Sys2Proof.Machine

/-- CLR (R80): `ACC <- 0`. -/
def execClr (s : State) : Host.Outcome State Fault Refusal := .next (s.setAcc 0x00000000#32)

/-- LDACC imm (R81): `ACC <- imm`. -/
def execLdacc (imm : Acc32) (s : State) : Host.Outcome State Fault Refusal := .next (s.setAcc imm)

/-- SUMW d (R82): the exact sum of R83 goes to ACC; a sum above 0xFFFFFFFF takes the fault ACC_OVERFLOW instead and leaves ACC
as it was (R84). -/
def execSumw (d : List Octet) (s : State) : Host.Outcome State Fault Refusal :=
  if Config.accMax < sumWords s.acc.toNat d then .next (s.enterFault .accOverflow opSumw)
  else .next (s.setAcc (BitVec.ofNat 32 (sumWords s.acc.toNat d)))

end Sys2Proof.Machine
end

