-- ==== Sys2Proof/Machine/Finalize.lean ====
section
/-! DEFINITION. The meanings of COMPUTE and VERIFY (spec/41_finalize.md R103, R104). Neither can fault, and neither writes ACC. -/

namespace Sys2Proof.Machine

/-- COMPUTE (R103): `RESULT <- Finish(Fold(ACC))` and `STATUS.RV <- 1`. -/
def execCompute (s : State) : Host.Outcome State Fault Refusal :=
  .next ((s.setResult (finish (fold s.acc))).mapStatus Status.setRv)

/-- VERIFY (R104): `STATUS.VOK <- (Fold(ACC) == 0xFFFF)` and `STATUS.VV <- 1`. -/
def execVerify (s : State) : Host.Outcome State Fault Refusal :=
  .next (s.mapStatus (Status.setVerdict (verdict s.acc)))

end Sys2Proof.Machine
end

