-- ==== Sys2Proof/Machine/Dispatch.lean ====
section
/-! DEFINITION. One arm per command: the meaning it calls (spec/30_encoding.md R62). -/

namespace Sys2Proof.Machine

def exec (i : Instr) (s : State) : Host.Outcome State Fault Refusal :=
  match i with
  | .clr => Sys2Proof.Machine.execClr s
  | .ldacc imm => Sys2Proof.Machine.execLdacc imm s
  | .sumw d => Sys2Proof.Machine.execSumw d s
  | .compute => Sys2Proof.Machine.execCompute s
  | .verify => Sys2Proof.Machine.execVerify s

end Sys2Proof.Machine
end

