-- ==== Sys2Proof/Machine/Step.lean ====
section
/-! DEFINITION. The engine step (spec/30_encoding.md R71). -/

namespace Sys2Proof.Machine

/-- One engine step (R71). A complete command is consumed and executed, an illegal opcode octet is consumed and its fault taken,
both as one step. In the fault state (R123), with no octet, or with an incomplete command there is no step, and the outcome
says which (log entry 1, DESIGN CHOICE, safe). -/
def step (s : State) : Host.Outcome State Fault Refusal :=
  match s.status.err with
  | .illegalOpcode => .fault .engineFaulted
  | .accOverflow => .fault .engineFaulted
  | .none =>
    match decode s.stream with
    | .empty => .fault .idle
    | .incomplete => .fault .incompleteCommand
    | .illegal op => .next (s.takeIllegal op)
    | .command i _ => exec i (s.consume i.length)

/-- `s` with the instruction whose bits are `w` (numbered as spec/opcode_table.json numbers them) placed where `step` decodes
next (log entry 2, DESIGN CHOICE, safe). -/
def State.withFetchWord (s : State) (nbits w : Nat) : State := s.placeAtFetch (layoutWord nbits w)

end Sys2Proof.Machine
end

