-- ==== Sys2Proof/Machine/Spans.lean ====
section
/-! DEFINITION. What the host feeds the engine: the span layouts (spec/20_memory.md R53 to R55), the checksum field's duties
(spec/41_finalize.md R107, R108, R112), the pseudo-commands (spec/30_encoding.md R69), and the source's three operations they
realise (R110). The engine checks none of it. -/

namespace Sys2Proof.Machine

/-- The pseudo-header span, 12 octets (R53): source, destination, a zero octet, the protocol number 17, the total length. That
the length is the datagram's is a precondition, not checked. -/
def pseudoHeaderSpan (source destination : BitVec 32) (length : Word) : List Octet :=
  octets32 source ++ octets32 destination ++ [0x00#8, 0x11#8] ++ octets16 length

/-- The header span, 8 octets (R54): source port, destination port, total length, checksum. -/
def headerSpan (sourcePort destinationPort length checksum : Word) : List Octet :=
  octets16 sourcePort ++ octets16 destinationPort ++ octets16 length ++ octets16 checksum

/-- The total length of a datagram with this payload: 8 header octets and the payload (R54, R55). R55 gives 0 to 65527
payload octets; for a longer payload the spec gives no length, and the 16-bit field here wraps (log entry 17, DESIGN CHOICE,
unsafe for such a payload). -/
def datagramLength (payload : List Octet) : Word := BitVec.ofNat 16 (8 + payload.length)

/-- A header span with octets 6 and 7 set to a checksum, high octet first (R108, R109); meant for a header of 8 octets
(log entry 9, DESIGN CHOICE, unsafe for any other length). -/
def withChecksumField (h : List Octet) (c : Word) : List Octet :=
  h.take 6 ++ octets16 c ++ h.drop 8

/-- A header span with its checksum field zeroed, as the host must do before COMPUTE (R112, R145). -/
def zeroChecksumField (h : List Octet) : List Octet := withChecksumField h Config.absentSentinel

/-- CSUM3 (R69). -/
def csum3 (p h d : List Octet) : List Instr := [.clr, .sumw p, .sumw h, .sumw d, .compute]

/-- VERIFY3 (R69). -/
def verify3 (p h d : List Octet) : List Instr := [.clr, .sumw p, .sumw h, .sumw d, .verify]

/-- SUMWI (R69). -/
def sumwi (init : Acc32) (b : List Octet) : List Instr := [.ldacc init, .sumw b]

/-- The host's exemption (R107, R145): with an absent checksum in octets 6 and 7 it issues nothing and reads no verdict; with a
present one it runs VERIFY3 (log entry 9, DESIGN CHOICE, for a header that is not 8 octets long). -/
def hostVerify (p h d : List Octet) : Option (List Instr) :=
  if h[6]? = some 0x00#8 ∧ h[7]? = some 0x00#8 then none else some (verify3 p h d)

/-- The source's `sumWords` over three spans from the initial sum 0 (R110, spec/92_eei_decisions.md D10), an exact sum. -/
def sourceSum (p h d : List Octet) : Nat := sumWords (sumWords (sumWords 0 p) h) d

/-- The source's `compute(p, h, d)` for a sum that fits 32 bits (R110): fold, complement, zero to all-ones (log entry 13,
DESIGN CHOICE, safe). -/
def sourceCompute (p h d : List Octet) : Word := finish (fold (BitVec.ofNat 32 (sourceSum p h d)))

/-- The source's `verify(p, h, d)` for a sum that fits 32 bits (R110): fold, compare with 0xFFFF. -/
def sourceVerify (p h d : List Octet) : Bool :=
  fold (BitVec.ofNat 32 (sourceSum p h d)) == Config.verifyConstant

end Sys2Proof.Machine
end

