-- ==== Sys2Proof/Machine/Asm.lean ====
section
/-! DEFINITION. The assembler (spec/30_encoding.md R68, R69): a statement with its numbers as written, its octets or a refusal,
and the text of a program, one command per line. What R68 leaves open of the text is log entry 12 (DESIGN CHOICE). -/

namespace Sys2Proof.Machine

/-- What the assembler refuses. -/
inductive AsmError
  /-- A SUMW list longer than 65535 octets (R68, I15). -/
  | spanTooLong
  /-- An immediate or an octet out of range (R68). -/
  | outOfRange
  /-- An unknown mnemonic (R68). -/
  | unknownMnemonic
  /-- Text that is no statement of R68's syntax table (log entry 12). -/
  | badSyntax
  deriving DecidableEq, Repr

/-- One statement, its numbers still unchecked. -/
inductive AsmLine
  | clr
  | ldacc (imm : Nat)
  | sumw (bs : List Nat)
  | compute
  | verify
  /-- `.byte`: the octets as given. -/
  | byte (bs : List Nat)
  | csum3 (p h d : List Nat)
  | verify3 (p h d : List Nat)
  | sumwi (init : Nat) (b : List Nat)
  deriving DecidableEq, Repr

/-- Numbers as octets, each in 0 to 0xFF (R68). -/
def asmOctets : List Nat → Except AsmError (List Octet)
  | [] => .ok []
  | b :: bs =>
    if b ≤ 0xFF then
      match asmOctets bs with
      | .ok os => .ok (BitVec.ofNat 8 b :: os)
      | .error e => .error e
    else .error .outOfRange

/-- A span operand: at most 65535 octets, never split (R68). For a list that is too long and holds a number out of range, the
length is named (log entry 12, DESIGN CHOICE). -/
def asmSpan (bs : List Nat) : Except AsmError (List Octet) :=
  if bs.length ≤ Config.maxSpan then asmOctets bs else .error .spanTooLong

/-- An immediate in 0 to 0xFFFFFFFF (R68). -/
def asmImm (imm : Nat) : Except AsmError Acc32 :=
  if imm ≤ 0xFFFFFFFF then .ok (BitVec.ofNat 32 imm) else .error .outOfRange

/-- Three span operands, each under the refusals of R68 (R69). -/
def asmSpans3 (p h d : List Nat) : Except AsmError (List Octet × List Octet × List Octet) :=
  match asmSpan p with
  | .error e => .error e
  | .ok p' =>
    match asmSpan h with
    | .error e => .error e
    | .ok h' =>
      match asmSpan d with
      | .error e => .error e
      | .ok d' => .ok (p', h', d')

/-- The octets of one statement (R68, R69). -/
def assembleLine : AsmLine → Except AsmError (List Octet)
  | .clr => .ok (encode .clr)
  | .ldacc imm =>
    match asmImm imm with
    | .ok v => .ok (encode (.ldacc v))
    | .error e => .error e
  | .sumw bs =>
    match asmSpan bs with
    | .ok d => .ok (encode (.sumw d))
    | .error e => .error e
  | .compute => .ok (encode .compute)
  | .verify => .ok (encode .verify)
  | .byte bs => asmOctets bs
  | .csum3 p h d =>
    match asmSpans3 p h d with
    | .ok (p', h', d') => .ok (encodeAll (csum3 p' h' d'))
    | .error e => .error e
  | .verify3 p h d =>
    match asmSpans3 p h d with
    | .ok (p', h', d') => .ok (encodeAll (verify3 p' h' d'))
    | .error e => .error e
  | .sumwi init b =>
    match asmImm init with
    | .error e => .error e
    | .ok v =>
      match asmSpan b with
      | .ok d => .ok (encodeAll (sumwi v d))
      | .error e => .error e

/-- The octets of a program, its statements in order. -/
def assemble : List AsmLine → Except AsmError (List Octet)
  | [] => .ok []
  | l :: ls =>
    match assembleLine l with
    | .error e => .error e
    | .ok os =>
      match assemble ls with
      | .error e => .error e
      | .ok rest => .ok (os ++ rest)

/-- The statement that spells a command. -/
def AsmLine.ofInstr : Instr → AsmLine
  | .clr => .clr
  | .ldacc imm => .ldacc imm.toNat
  | .sumw d => .sumw (d.map BitVec.toNat)
  | .compute => .compute
  | .verify => .verify

/-- The tokens of a line. -/
inductive AsmToken
  /-- A mnemonic, a directive or a number. -/
  | word (cs : List Char)
  | comma
  | open
  | close
  deriving DecidableEq, Repr

/-- The characters of a line before its comment; `;` starts one (R68). -/
def dropComment (cs : List Char) : List Char := cs.takeWhile (fun c => c ≠ ';')

/-- A pending word, if it has characters, before the tokens after it. -/
def flushWord (pending : List Char) (ts : List AsmToken) : List AsmToken :=
  match pending with
  | [] => ts
  | c :: cs => .word (c :: cs).reverse :: ts

/-- The tokens of a line; `pending` is the word being read, last character first. -/
def tokens : List Char → List Char → List AsmToken
  | [], pending => flushWord pending []
  | c :: cs, pending =>
    if c = ',' then flushWord pending (.comma :: tokens cs [])
    else if c = '[' then flushWord pending (.open :: tokens cs [])
    else if c = ']' then flushWord pending (.close :: tokens cs [])
    else if c = ' ' ∨ c = '\t' ∨ c = '\r' then flushWord pending (tokens cs [])
    else tokens cs (c :: pending)

/-- A decimal digit's value. -/
def decDigit (c : Char) : Option Nat :=
  if '0'.toNat ≤ c.toNat ∧ c.toNat ≤ '9'.toNat then some (c.toNat - '0'.toNat) else none

/-- A hexadecimal digit's value, its letter in either case (log entry 12). -/
def hexDigit (c : Char) : Option Nat :=
  if 'a'.toNat ≤ c.toNat ∧ c.toNat ≤ 'f'.toNat then some (c.toNat - 'a'.toNat + 10)
  else if 'A'.toNat ≤ c.toNat ∧ c.toNat ≤ 'F'.toNat then some (c.toNat - 'A'.toNat + 10)
  else decDigit c

/-- A digit string's value after what `acc` has read. -/
def digitsValue (base : Nat) (digit : Char → Option Nat) : List Char → Nat → Option Nat
  | [], acc => some acc
  | c :: cs, acc =>
    match digit c with
    | some v => digitsValue base digit cs (acc * base + v)
    | none => none

/-- A number, decimal or `0x` hexadecimal (R68). -/
def parseNumber : List Char → Option Nat
  | '0' :: 'x' :: c :: cs => digitsValue 16 hexDigit (c :: cs) 0
  | c :: cs => digitsValue 10 decDigit (c :: cs) 0
  | [] => none

/-- Numbers separated by commas, up to the closing bracket; what follows is returned. -/
def parseItems : List AsmToken → Option (List Nat × List AsmToken)
  | .word cs :: .close :: rest =>
    match parseNumber cs with
    | some n => some ([n], rest)
    | none => none
  | .word cs :: .comma :: rest =>
    match parseNumber cs, parseItems rest with
    | some n, some (ns, rest') => some (n :: ns, rest')
    | _, _ => none
  | _ => none

/-- A bracketed list of numbers, which may be empty (R68: n in 0 to 65535). -/
def parseList : List AsmToken → Option (List Nat × List AsmToken)
  | .open :: .close :: rest => some ([], rest)
  | .open :: rest => parseItems rest
  | _ => none

/-- A bracketed list that ends the line. -/
def parseLastList (ts : List AsmToken) : Option (List Nat) :=
  match parseList ts with
  | some (ns, []) => some ns
  | _ => none

/-- A bracketed list and the comma after it. -/
def parseListComma (ts : List AsmToken) : Option (List Nat × List AsmToken) :=
  match parseList ts with
  | some (ns, .comma :: rest) => some (ns, rest)
  | _ => none

/-- Three bracketed lists separated by commas (R69). -/
def parseLists3 (ts : List AsmToken) : Option (List Nat × List Nat × List Nat) :=
  match parseListComma ts with
  | some (p, ts₁) =>
    match parseListComma ts₁ with
    | some (h, ts₂) =>
      match parseLastList ts₂ with
      | some d => some (p, h, d)
      | none => none
    | none => none
  | none => none

/-- Numbers separated by commas up to the end of the line, at least one (`.byte`). -/
def parseBytes : List AsmToken → Option (List Nat)
  | [.word cs] =>
    match parseNumber cs with
    | some n => some [n]
    | none => none
  | .word cs :: .comma :: rest =>
    match parseNumber cs, parseBytes rest with
    | some n, some ns => some (n :: ns)
    | _, _ => none
  | _ => none

/-- Whether a word is this mnemonic, in upper or in lower case (R68; a mixed case is refused, log entry 12). -/
def isMnemonic (upper : List Char) (w : List Char) : Bool :=
  w == upper || w == upper.map Char.toLower

/-- The statement of a line's mnemonic and operand tokens. -/
def parseStatement (w : List Char) (ts : List AsmToken) : Except AsmError AsmLine :=
  if isMnemonic ['C', 'L', 'R'] w then
    if ts = [] then .ok .clr else .error .badSyntax
  else if isMnemonic ['C', 'O', 'M', 'P', 'U', 'T', 'E'] w then
    if ts = [] then .ok .compute else .error .badSyntax
  else if isMnemonic ['V', 'E', 'R', 'I', 'F', 'Y'] w then
    if ts = [] then .ok .verify else .error .badSyntax
  else if isMnemonic ['L', 'D', 'A', 'C', 'C'] w then
    match ts with
    | [.word cs] =>
      match parseNumber cs with
      | some n => .ok (.ldacc n)
      | none => .error .badSyntax
    | _ => .error .badSyntax
  else if isMnemonic ['S', 'U', 'M', 'W'] w then
    match parseLastList ts with
    | some ns => .ok (.sumw ns)
    | none => .error .badSyntax
  else if isMnemonic ['.', 'B', 'Y', 'T', 'E'] w then
    match parseBytes ts with
    | some ns => .ok (.byte ns)
    | none => .error .badSyntax
  else if isMnemonic ['C', 'S', 'U', 'M', '3'] w then
    match parseLists3 ts with
    | some (p, h, d) => .ok (.csum3 p h d)
    | none => .error .badSyntax
  else if isMnemonic ['V', 'E', 'R', 'I', 'F', 'Y', '3'] w then
    match parseLists3 ts with
    | some (p, h, d) => .ok (.verify3 p h d)
    | none => .error .badSyntax
  else if isMnemonic ['S', 'U', 'M', 'W', 'I'] w then
    match ts with
    | .word cs :: .comma :: rest =>
      match parseNumber cs, parseLastList rest with
      | some n, some ns => .ok (.sumwi n ns)
      | _, _ => .error .badSyntax
    | _ => .error .badSyntax
  else .error .unknownMnemonic

/-- The statement of a line of text; a line with none (blank, or a comment alone) gives `none`. -/
def parseLine (cs : List Char) : Except AsmError (Option AsmLine) :=
  match tokens (dropComment cs) [] with
  | [] => .ok none
  | .word w :: ts =>
    match parseStatement w ts with
    | .ok l => .ok (some l)
    | .error e => .error e
  | _ => .error .badSyntax

/-- The lines of a text; `pending` is the line being read, last character first. -/
def textLines : List Char → List Char → List (List Char)
  | [], pending => [pending.reverse]
  | c :: cs, pending =>
    if c = '\n' then pending.reverse :: textLines cs [] else textLines cs (c :: pending)

/-- The statements of a text's lines. -/
def parseLines : List (List Char) → Except AsmError (List AsmLine)
  | [] => .ok []
  | cs :: css =>
    match parseLine cs with
    | .error e => .error e
    | .ok l =>
      match parseLines css with
      | .error e => .error e
      | .ok ls => .ok (l.toList ++ ls)

/-- The octets of a program's text (R68): one command per line. Every line is parsed before any is assembled, so of several
refusals one for the form of a line (badSyntax, unknownMnemonic) is named before any for a number or a list (outOfRange,
spanTooLong), and the first line's among those of one kind (log entry 12, DESIGN CHOICE). -/
def assembleText (text : List Char) : Except AsmError (List Octet) :=
  match parseLines (textLines text []) with
  | .ok ls => assemble ls
  | .error e => .error e

end Sys2Proof.Machine
end

