-- ==== Sys2Proof/Machine/Pseudocode.lean ====
section
/-! DEFINITION. The pseudocode of the engine step (spec/30_encoding.md R71) and of the five commands (R80 to R82, R103, R104)
written out a second time, as it stands in the spec: with Peek, Avail and Consume on the stream, the words of a span by index
(R43), and no decoder. `step` never uses it; statements compare the two. -/

namespace Sys2Proof.Machine

/-- `w_k` of a span (R43), by index: two octets, or the last octet and a zero. -/
def wordAt (d : List Octet) (k : Nat) : Nat :=
  if 2 * k + 1 < d.length then (d.getD (2 * k) 0).toNat * 256 + (d.getD (2 * k + 1) 0).toNat
  else (d.getD (2 * k) 0).toNat * 256

/-- `SumWords` (R83) as a sum over the indices 0 to m - 1, where m = (n + 1) >> 1 (R43). -/
def sumWordsAt (init : Nat) (d : List Octet) : Nat :=
  init + ((List.range ((d.length + 1) >>> 1)).map (wordAt d)).sum

/-- `Peek(k)` where a `require` has made sure that the octet is there. -/
def State.peekD (k : Nat) (s : State) : Octet := (s.peek k).getD 0x00#8

/-- The step of R71; `none` where a `require` fails. -/
def pseudocodeStep (s : State) : Option State :=
  if s.status.err ≠ .none then none
  else if s.avail < 1 then none
  else if s.peekD 0 = 0x01#8 then
    some { s.consume 1 with acc := 0 }
  else if s.peekD 0 = 0x02#8 then
    if s.avail < 5 then none
    else some { s.consume 5 with
      acc := BitVec.ofNat 32 ((((s.peekD 1).toNat * 256 + (s.peekD 2).toNat) * 256 + (s.peekD 3).toNat) * 256
        + (s.peekD 4).toNat) }
  else if s.peekD 0 = 0x03#8 then
    if s.avail < 3 then none
    else
      let len := (s.peekD 1).toNat * 256 + (s.peekD 2).toNat
      if s.avail < 3 + len then none
      else
        let d := (List.range len).map (fun j => s.peekD (3 + j))
        let sum := sumWordsAt s.acc.toNat d
        if 0xFFFFFFFF < sum then
          some { s.consume (3 + len) with status := { s.status with err := .accOverflow }, fop := 0x03#8 }
        else some { s.consume (3 + len) with acc := BitVec.ofNat 32 sum }
  else if s.peekD 0 = 0x04#8 then
    some { s.consume 1 with result := finish (fold s.acc), status := { s.status with rv := true } }
  else if s.peekD 0 = 0x05#8 then
    some { s.consume 1 with
      status := { s.status with vok := decide (fold s.acc = 0xFFFF#16), vv := true } }
  else
    some { s.consume 1 with status := { s.status with err := .illegalOpcode }, fop := s.peekD 0 }

end Sys2Proof.Machine
end

