-- ==== Sys2Proof/Machine/HostPort.lean ====
section
/-! DEFINITION. What the host can do to one instance (spec/60_exceptions.md R130): append octets, read the readback window
(spec/20_memory.md R41, R46), assert reset (spec/70_reset_and_hazards.md R140). -/

namespace Sys2Proof.Machine

/-- The host appends octets at the end of the command stream (R40, R130). -/
def State.append (os : List Octet) (s : State) : State := { s with stream := s.stream ++ os }

/-- Reset, from any state (R140): every register takes its value of R32, the unconsumed octets are discarded, POS becomes 0. -/
def State.hostReset (_ : State) : State := State.reset

/-- The readback window `RB`, offsets 0 to 7 in order, every field big-endian (R41). -/
def State.window (s : State) : List Octet :=
  octets32 s.acc ++ octets16 s.result ++ [s.status.toOctet, s.fop]

/-- `RB[k]` (R41). Offsets 8 and above do not exist, and a read there is refused. -/
def State.readback (s : State) (k : Nat) : Except Refusal Octet :=
  match s.window[k]? with
  | some o => .ok o
  | none => .error (.noReadbackOffset k)

/-- One host read of several offsets, answered in the order asked, from one state: a snapshot (R46; log entry 8,
DESIGN CHOICE, safe). -/
def State.readMany (s : State) : List Nat → Except Refusal (List Octet)
  | [] => .ok []
  | k :: ks =>
    match s.readback k with
    | .error r => .error r
    | .ok o =>
      match s.readMany ks with
      | .error r => .error r
      | .ok os => .ok (o :: os)

end Sys2Proof.Machine
end

