-- ==== Sys2Proof/Machine/Moves.lean ====
section
/-! DEFINITION. The two agents together (spec/20_memory.md R49, spec/60_exceptions.md R130): one move, a list of moves as one
finite interleaving of the host and the engine, an infinite one, runs of the engine alone, and several instances (R129). -/

namespace Sys2Proof.Machine

/-- One move of the engine or of the host. "What the host may not do has no move in the model" (R130). -/
inductive Move
  /-- The engine takes its step. -/
  | engine
  /-- The host appends one or more octets. -/
  | append (first : Octet) (more : List Octet)
  /-- The host reads some offsets of the readback window, in one read. -/
  | read (offsets : List Nat)
  /-- The host asserts reset. -/
  | reset
  deriving DecidableEq, Repr

/-- What a move does to the state. A read does nothing to it, and is refused at an offset that does not exist (R41, R46). -/
def Move.apply (m : Move) (s : State) : Host.Outcome State Fault Refusal :=
  match m with
  | .engine => step s
  | .append first more => .next (s.append (first :: more))
  | .read offsets =>
    match s.readMany offsets with
    | .ok _ => .next s
    | .error r => .refused r
  | .reset => .next s.hostReset

/-- What the host gets back from a move (R130): octets from a read, nothing otherwise. -/
def Move.answer (m : Move) (s : State) : Except Refusal (List Octet) :=
  match m with
  | .engine => .ok []
  | .append _ _ => .ok []
  | .read offsets => s.readMany offsets
  | .reset => .ok []

/-- The octets a move appends. -/
def Move.octets : Move → List Octet
  | .engine => []
  | .append first more => first :: more
  | .read _ => []
  | .reset => []

/-- The octets a list of moves appends, in the order the host makes the appends (R49). -/
def appended : List Move → List Octet
  | [] => []
  | m :: ms => m.octets ++ appended ms

/-- The state after an outcome: a move that is not enabled leaves the state it was tried in. -/
def outcomeState (s : State) : Host.Outcome State Fault Refusal → State
  | .next t => t
  | .fault _ => s
  | .refused _ => s

/-- The state after a list of moves, one interleaving of the two agents; where an engine move is not enabled nothing happens, as
R71 says of a hold and R123 of the fault state (log entry 10, DESIGN CHOICE, safe). -/
def schedule : List Move → State → State
  | [], s => s
  | m :: ms, s => schedule ms (outcomeState s (m.apply s))

/-- The state before move `n` of an infinite interleaving `μ` that starts in `s` (R49, R148); a move that is not enabled leaves
the state as it is (log entry 10, DESIGN CHOICE, safe). -/
def stateAt (μ : Nat → Move) (s : State) : Nat → State
  | 0 => s
  | n + 1 => outcomeState (stateAt μ s n) ((μ n).apply (stateAt μ s n))

/-- At most `n` engine steps, ending early where there is none. -/
def engineSteps : Nat → State → State
  | 0, s => s
  | n + 1, s =>
    match step s with
    | .next t => engineSteps n t
    | .fault _ => s
    | .refused _ => s

/-- The engine runs until it has no step: every step consumes an octet, so `Avail` steps are enough (R71). -/
def runEngine (s : State) : State := engineSteps s.avail s

/-- Several instances (R129): each has its own state, and a move acts on one of them. An index that names no instance is
refused; the index is the model's, since instances "have no identifiers" (log entry 11, DESIGN CHOICE, safe). -/
def platformMove (k : Nat) (m : Move) (p : List State) : Host.Outcome (List State) Fault Refusal :=
  match p[k]? with
  | none => .refused (.noSuchInstance k)
  | some s =>
    match m.apply s with
    | .next t => .next (p.set k t)
    | .fault r => .fault r
    | .refused r => .refused r

end Sys2Proof.Machine
end

