-- ==== Sys2Proof/Safety.lean ====
section
/-! DEFINITION. The terms claims use: quiescence and the end of a run (spec/70_reset_and_hazards.md R149), fairness (R148), the machine's
invariant (spec/10_state.md R22, R25, R27; spec/60_exceptions.md R121), and the carry fold as the loop it is
(spec/41_finalize.md R100). -/

namespace Sys2Proof.Machine

/-- Whether a stream starts with a complete command (R66, R71); an illegal opcode octet is complete by itself (R62). -/
def startsComplete (os : List Octet) : Bool :=
  match commandLength os with
  | some n => decide (n ≤ os.length)
  | none => false

/-- Quiescent (R149): `ERR != NONE`, or the unconsumed stream does not start with a complete command. -/
def State.quiescent (s : State) : Bool := decide (s.status.err ≠ .none) || !startsComplete s.stream

/-- A run ends successfully (R149): quiescent, `ERR = NONE` and no unconsumed octet. Only then may a host trust RESULT or VOK
(R147). -/
def State.endsSuccessfully (s : State) : Bool :=
  s.quiescent && decide (s.status.err = .none) && decide (s.stream = [])

/-- Fairness, the one thing a model needs of time (R148, D14): "an enabled engine step is eventually taken". Whenever the engine
has a step, an engine move comes, unless the host asserts reset first (the reset clause: log entry 15, DESIGN CHOICE, safe). -/
def Fair (μ : Nat → Move) (s : State) : Prop :=
  ∀ n, (stateAt μ s n).quiescent = false → ∃ m, n ≤ m ∧ (μ m = .engine ∨ μ m = .reset)

/-- The interleaving that makes these moves first and then lets the engine move for ever. -/
def thenEngine (ms : List Move) (n : Nat) : Move := ms.getD n .engine

/-- An opcode octet outside 0x01 to 0x05 (R67). -/
def illegalOctet (op : Octet) : Bool := decide (op.toNat = 0x00 ∨ 0x06 ≤ op.toNat)

/-- What FOP holds under each fault code (R27, R121). -/
def fopAgrees : ErrCode → Octet → Bool
  | .none, fop => fop == 0x00#8
  | .illegalOpcode, fop => illegalOctet fop
  | .accOverflow, fop => fop == 0x03#8

/-- The invariant: FOP agrees with ERR (R27, R121); RESULT is 0 before the first COMPUTE and never after it (R22, R24, R32);
VOK is 0 while VV is 0 (R25); a faulted engine has consumed the command that faulted (R121). -/
def State.Inv (s : State) : Prop :=
  fopAgrees s.status.err s.fop = true ∧
  (s.status.rv = true ↔ s.result ≠ 0x0000#16) ∧
  (s.status.vv = false → s.status.vok = false) ∧
  (s.status.err = .illegalOpcode → 1 ≤ s.pos) ∧
  (s.status.err = .accOverflow → 3 ≤ s.pos)

/-- The loop of R100 run to its end: from `sum`, after `k` passes of the body, the result is `out`. -/
inductive FoldRuns : Nat → Nat → Nat → Prop
  | done (sum : Nat) (h : ¬ 0xFFFF < sum) : FoldRuns sum 0 sum
  | pass (sum k out : Nat) (h : 0xFFFF < sum)
      (rest : FoldRuns (sum % 0x10000 + sum / 0x10000) k out) : FoldRuns sum (k + 1) out

end Sys2Proof.Machine
end

