-- ==== Sys2Proof/Certificates/Slice0/Obligations.lean ====
section
/-! DEFINITION. The statements for the provers, each from numbered rules of spec/. -/

open Sys2Proof Sys2Proof.Machine

/-! ### Reset and readback -/

/-- R32: the value of every piece of state after reset. -/
def Obligations.ResetGivesTheStatedValues : Prop :=
  ∀ s : State, ∃ t, Move.reset.apply s = .next t ∧ t = State.reset ∧
    t.acc = 0x00000000#32 ∧ t.result = 0x0000#16 ∧ t.status.toOctet = 0x00#8 ∧
    t.status.rv = false ∧ t.status.vv = false ∧ t.status.vok = false ∧ t.status.err = .none ∧
    t.fop = 0x00#8 ∧ t.pos = 0 ∧ t.stream = []

/-- R41: the readback window, and the refusal of the offsets that do not exist. -/
def Obligations.ReadbackWindowLayout : Prop :=
  ∀ s : State,
    s.readback 0 = .ok (s.acc.extractLsb' 24 8) ∧
    s.readback 1 = .ok (s.acc.extractLsb' 16 8) ∧
    s.readback 2 = .ok (s.acc.extractLsb' 8 8) ∧
    s.readback 3 = .ok (s.acc.extractLsb' 0 8) ∧
    s.readback 4 = .ok (s.result.extractLsb' 8 8) ∧
    s.readback 5 = .ok (s.result.extractLsb' 0 8) ∧
    s.readback 6 = .ok s.status.toOctet ∧
    s.readback 7 = .ok s.fop ∧
    ∀ k, 8 ≤ k → s.readback k = .error (.noReadbackOffset k)

/-- R42, R41: the four octets of ACC, and the two of RESULT, joined most significant first, are the register. -/
def Obligations.WindowIsBigEndian : Prop :=
  ∀ s : State, ∃ a₃ a₂ a₁ a₀ r₁ r₀ st f : Octet,
    s.window = [a₃, a₂, a₁, a₀, r₁, r₀, st, f] ∧
    s.acc.toNat = ((a₃.toNat * 256 + a₂.toNat) * 256 + a₁.toNat) * 256 + a₀.toNat ∧
    s.result.toNat = r₁.toNat * 256 + r₀.toNat

/-- R46: a read changes nothing and answers every offset from one state. The order of the answer, and the refusal of the
whole read for one offset that does not exist, are the model's (log entry 8). -/
def Obligations.ReadIsASnapshotWithoutEffect : Prop :=
  ∀ (s : State) (ks : List Nat),
    ((∀ k ∈ ks, k < 8) →
      (Move.read ks).apply s = .next s ∧
      ∃ os, (Move.read ks).answer s = .ok os ∧ os.length = ks.length ∧
        ∀ j k : Nat, ks[j]? = some k → ∃ o, os[j]? = some o ∧ s.readback k = .ok o) ∧
    ((∃ k ∈ ks, 8 ≤ k) → ∃ k, 8 ≤ k ∧ (Move.read ks).apply s = .refused (.noReadbackOffset k))

/-- R23, R26: the bits of STATUS as the host reads it; reserved bits read 0 and ERR is never 0b11. -/
def Obligations.StatusOctetFields : Prop :=
  ∀ st : Status,
    st.toOctet.getLsbD 0 = st.rv ∧ st.toOctet.getLsbD 1 = st.vv ∧ st.toOctet.getLsbD 2 = st.vok ∧
    st.toOctet.getLsbD 3 = false ∧ st.toOctet.getLsbD 6 = false ∧ st.toOctet.getLsbD 7 = false ∧
    (st.err = .none ↔ st.toOctet.extractLsb' 4 2 = 0b00#2) ∧
    (st.err = .illegalOpcode ↔ st.toOctet.extractLsb' 4 2 = 0b01#2) ∧
    (st.err = .accOverflow ↔ st.toOctet.extractLsb' 4 2 = 0b10#2) ∧
    st.toOctet.extractLsb' 4 2 ≠ 0b11#2

/-! ### Encoding -/

/-- R61 to R64, vectors V-E1 to V-E14: a few octet sequences written out from the spec and what they decode to. -/
def Obligations.WrittenOutOctetsDecode : Prop :=
  decode [0x01#8] = .command .clr [] ∧
  decode [0x02#8, 0x12#8, 0x34#8, 0x56#8, 0x78#8] = .command (.ldacc 0x12345678#32) [] ∧
  decode [0x03#8, 0x00#8, 0x00#8] = .command (.sumw []) [] ∧
  decode [0x03#8, 0x00#8, 0x03#8, 0x12#8, 0x34#8, 0x56#8, 0x04#8] =
    .command (.sumw [0x12#8, 0x34#8, 0x56#8]) [0x04#8] ∧
  decode [0x04#8] = .command .compute [] ∧
  decode [0x05#8] = .command .verify [] ∧
  decode [0x00#8] = .illegal 0x00#8 ∧
  decode [0x06#8] = .illegal 0x06#8 ∧
  decode [0xFF#8] = .illegal 0xFF#8 ∧
  decode [0x02#8, 0x00#8, 0x00#8] = .incomplete ∧
  decode [0x03#8, 0x00#8] = .incomplete ∧
  decode [0x03#8, 0x00#8, 0x04#8, 0xAA#8, 0xBB#8] = .incomplete ∧
  decode [] = .empty

/-- R63, R64: how LEN and IMM32 are assembled, as numbers, for all octets. -/
def Obligations.OperandsAssembleBigEndian : Prop :=
  (∀ (o₁ o₂ : Octet) (d rest : List Octet), d.length = o₁.toNat * 256 + o₂.toNat →
    decode (0x03#8 :: o₁ :: o₂ :: (d ++ rest)) = .command (.sumw d) rest ∧ d.length ≤ 65535) ∧
  (∀ (o₁ o₂ o₃ o₄ : Octet) (rest : List Octet), ∃ imm : BitVec 32,
    decode (0x02#8 :: o₁ :: o₂ :: o₃ :: o₄ :: rest) = .command (.ldacc imm) rest ∧
    imm.toNat = ((o₁.toNat * 256 + o₂.toNat) * 256 + o₃.toNat) * 256 + o₄.toNat)

/-- R66: a command's length is learnt from its first octet, or its first three for format FS, and decides what decoding gives. -/
def Obligations.LengthDecidesDecoding : Prop :=
  (∀ (op : Octet) (r : List Octet), op ≠ 0x02#8 → op ≠ 0x03#8 → commandLength (op :: r) = some 1) ∧
  (∀ r : List Octet, commandLength (0x02#8 :: r) = some 5) ∧
  (∀ (o₁ o₂ : Octet) (r : List Octet),
    commandLength (0x03#8 :: o₁ :: o₂ :: r) = some (3 + (o₁.toNat * 256 + o₂.toNat))) ∧
  (∀ os : List Octet, commandLength os = none ↔ os = [] ∨ (os.head? = some 0x03#8 ∧ os.length < 3)) ∧
  (∀ (os : List Octet) (n : Nat), commandLength os = some n →
    (n ≤ os.length →
      (∃ i, decode os = .command i (os.drop n) ∧ i.length = n) ∨
      (n = 1 ∧ ∃ op, decode os = .illegal op ∧ os.head? = some op)) ∧
    (os.length < n → decode os = .incomplete))

/-- R61, R62: decoding gives back every well-formed command that was encoded, whatever octets follow it. -/
def Obligations.DecodeOfEncodeGivesTheCommand : Prop :=
  ∀ (i : Instr) (rest : List Octet), i.wf = true → decode (encode i ++ rest) = .command i rest

/-- R60 to R66: each command has one encoding, and decoding gives only well-formed commands. -/
def Obligations.DecodedCommandHasThatEncoding : Prop :=
  ∀ (os rest : List Octet) (i : Instr), decode os = .command i rest →
    i.wf = true ∧ os = encode i ++ rest ∧ (encode i).length = i.length

/-! ### The engine step -/

/-- R71: when the stream starts with a command, a step consumes it and is `exec` of it. -/
def Obligations.StepRunsTheDecodedCommand : Prop :=
  ∀ (s : State) (i : Instr) (rest : List Octet), s.status.err = .none → decode s.stream = .command i rest →
    step s = exec i { s with pos := s.pos + i.length, stream := rest }

/-- R71: the step is the pseudocode written with Peek, Avail and Consume; it is enabled exactly when `ERR = NONE` and the
stream starts with a complete command, and where a `require` fails there is no next state. -/
def Obligations.StepIsThePseudocode : Prop :=
  ∀ s : State,
    (∀ t, step s = .next t ↔ pseudocodeStep s = some t) ∧
    ((∃ t, step s = .next t) ↔ s.status.err = .none ∧ startsComplete s.stream = true) ∧
    (pseudocodeStep s = none → ¬ ∃ t, step s = .next t)

/-- R33: the table of what each command writes, one clause a row, from the octets in the stream. -/
def Obligations.EachCommandWritesItsRow : Prop :=
  ∀ (s : State) (rest : List Octet), s.status.err = .none →
    (s.stream = 0x01#8 :: rest →
      step s = .next { s with acc := 0, pos := s.pos + 1, stream := rest }) ∧
    (∀ o₁ o₂ o₃ o₄ : Octet, s.stream = 0x02#8 :: o₁ :: o₂ :: o₃ :: o₄ :: rest →
      step s = .next { s with
        acc := BitVec.ofNat 32 (((o₁.toNat * 256 + o₂.toNat) * 256 + o₃.toNat) * 256 + o₄.toNat)
        pos := s.pos + 5
        stream := rest }) ∧
    (∀ (o₁ o₂ : Octet) (d : List Octet), s.stream = 0x03#8 :: o₁ :: o₂ :: (d ++ rest) →
      d.length = o₁.toNat * 256 + o₂.toNat → sumWords s.acc.toNat d ≤ 0xFFFFFFFF →
      step s = .next { s with
        acc := BitVec.ofNat 32 (sumWords s.acc.toNat d)
        pos := s.pos + (3 + d.length)
        stream := rest }) ∧
    (s.stream = 0x04#8 :: rest →
      step s = .next { s with
        result := finish (fold s.acc)
        status := { s.status with rv := true }
        pos := s.pos + 1
        stream := rest }) ∧
    (s.stream = 0x05#8 :: rest →
      step s = .next { s with
        status := { s.status with vv := true, vok := decide (fold s.acc = 0xFFFF#16) }
        pos := s.pos + 1
        stream := rest }) ∧
    (∀ op : Octet, s.stream = op :: rest → op.toNat = 0 ∨ 6 ≤ op.toNat →
      step s = .next { s with
        status := { s.status with err := .illegalOpcode }
        fop := op
        pos := s.pos + 1
        stream := rest }) ∧
    (∀ (o₁ o₂ : Octet) (d : List Octet), s.stream = 0x03#8 :: o₁ :: o₂ :: (d ++ rest) →
      d.length = o₁.toNat * 256 + o₂.toNat → 0xFFFFFFFF < sumWords s.acc.toNat d →
      step s = .next { s with
        status := { s.status with err := .accOverflow }
        fop := 0x03#8
        pos := s.pos + (3 + d.length)
        stream := rest })

/-- R29: a step advances POS by the command's length and takes exactly those octets off the stream; the host cannot see POS.
That a list of moves goes on past a move that is not enabled is the model's choice (log entry 10). -/
def Obligations.PosCountsTheConsumedOctets : Prop :=
  (∀ s t : State, step s = .next t → ∃ n, commandLength s.stream = some n ∧ 1 ≤ n ∧ n ≤ s.stream.length ∧
    t.pos = s.pos + n ∧ t.stream = s.stream.drop n) ∧
  (∀ ms : List Move, .reset ∉ ms →
    (schedule ms State.reset).pos + (schedule ms State.reset).avail = (appended ms).length) ∧
  (∀ (s : State) (p k : Nat), ({ s with pos := p } : State).readback k = s.readback k)

/-- R149: quiescence is the absence of a step, and the two kinds of quiescence that are no successful end. -/
def Obligations.QuiescentExactlyWithoutAStep : Prop :=
  ∀ s : State,
    (s.quiescent = true ↔ ¬ ∃ t, step s = .next t) ∧
    (s.endsSuccessfully = true ↔ (¬ ∃ t, step s = .next t) ∧ s.status.err = .none ∧ s.stream = []) ∧
    (s.quiescent = true ∧ s.endsSuccessfully = false ↔
      s.status.err ≠ .none ∨ (s.status.err = .none ∧ s.stream ≠ [] ∧ startsComplete s.stream = false))

/-- R148, R149: the engine alone reaches quiescence, within as many steps as there are unconsumed octets. -/
def Obligations.EngineReachesQuiescence : Prop :=
  ∀ s : State, (runEngine s).quiescent = true ∧
    ∀ n, s.avail ≤ n → engineSteps n s = runEngine s

/-! ### The commands, each with the corner cases of its rule -/

/-- R80: CLR, its encoding, its effect from every state, and what it leaves alone. -/
def Obligations.ClrClearsTheAccumulatorOnly : Prop :=
  ∀ s : State,
    exec .clr s = .next { s with acc := 0x00000000#32 } ∧
    encode .clr = [0x01#8] ∧ Instr.clr.length = 1 ∧
    (∀ rest, decode (0x01#8 :: rest) = .command .clr rest) ∧
    (s.acc = 0 → exec .clr s = .next s) ∧
    (s.status.err ≠ .none → ¬ ∃ t, step s = .next t)

/-- R81: LDACC, its encoding, its effect from every state; with 0 it is CLR; after 0xFFFFFFFF any non-zero word overflows. -/
def Obligations.LdaccLoadsTheAccumulatorOnly : Prop :=
  ∀ (s : State) (imm : BitVec 32),
    exec (.ldacc imm) s = .next { s with acc := imm } ∧
    encode (.ldacc imm) =
      [0x02#8, imm.extractLsb' 24 8, imm.extractLsb' 16 8, imm.extractLsb' 8 8, imm.extractLsb' 0 8] ∧
    (Instr.ldacc imm).length = 5 ∧
    exec (.ldacc 0) s = exec .clr s ∧
    (∀ t, exec (.ldacc 0xFFFFFFFF#32) s = .next t → ∀ d, (∃ w ∈ words d, w ≠ 0) →
      exec (.sumw d) t = .next (t.enterFault .accOverflow 0x03#8))

/-- R82, R83: SUMW completes exactly with the exact sum in ACC when it fits, for every span; the corner cases of the rule. -/
def Obligations.SumwAddsTheSpansWords : Prop :=
  ∀ (s : State) (d : List Octet),
    (s.acc.toNat + ((words d).map BitVec.toNat).sum ≤ 0xFFFFFFFF →
      exec (.sumw d) s =
        .next { s with acc := BitVec.ofNat 32 (s.acc.toNat + ((words d).map BitVec.toNat).sum) }) ∧
    (0xFFFFFFFF < s.acc.toNat + ((words d).map BitVec.toNat).sum →
      exec (.sumw d) s =
        .next { s with status := { s.status with err := .accOverflow }, fop := 0x03#8 }) ∧
    (d.length ≤ 65535 → encode (.sumw d) =
      0x03#8 :: BitVec.ofNat 8 (d.length / 256) :: BitVec.ofNat 8 (d.length % 256) :: d) ∧
    (Instr.sumw d).length = 3 + d.length ∧
    exec (.sumw []) s = .next s ∧
    (∀ o : Octet, d.length % 2 = 0 → sumWords s.acc.toNat (d ++ [o]) = sumWords s.acc.toNat d + o.toNat * 256) ∧
    ((∀ o ∈ d, o = 0x00#8) → exec (.sumw d) s = .next s)

/-- R84: on overflow ACC stays, ERR and FOP are written and the whole command is consumed; testing some intermediate sum or the
final one is the same. -/
def Obligations.SumwOverflowTakesTheFault : Prop :=
  ∀ (s : State) (o₁ o₂ : Octet) (d rest : List Octet),
    s.status.err = .none → s.stream = 0x03#8 :: o₁ :: o₂ :: (d ++ rest) → d.length = o₁.toNat * 256 + o₂.toNat →
    (0xFFFFFFFF < sumWords s.acc.toNat d → ∃ t, step s = .next t ∧
      t.acc = s.acc ∧ t.status = { s.status with err := .accOverflow } ∧ t.fop = 0x03#8 ∧
      t.pos = s.pos + (3 + d.length) ∧ t.stream = rest ∧ t.result = s.result) ∧
    ((∃ k, 0xFFFFFFFF < s.acc.toNat + (((words d).take k).map BitVec.toNat).sum) ↔
      0xFFFFFFFF < sumWords s.acc.toNat d)

/-- R103: COMPUTE, its encoding, its effect from every state; it reads ACC and does not write it. -/
def Obligations.ComputeWritesResultAndRv : Prop :=
  ∀ s : State,
    exec .compute s = .next { s with result := finish (fold s.acc), status := { s.status with rv := true } } ∧
    encode .compute = [0x04#8] ∧ Instr.compute.length = 1 ∧
    (∀ rest, decode (0x04#8 :: rest) = .command .compute rest) ∧
    (s.acc = 0 ∨ fold s.acc = 0xFFFF#16 ∨ s.acc = 0xFFFFFFFF#32 → finish (fold s.acc) = 0xFFFF#16) ∧
    finish (fold 0x00006834#32) = 0x97CB#16 ∧
    (∀ t, exec .compute s = .next t → exec .compute t = .next t)

/-- R104: VERIFY, its encoding, its effect from every state. -/
def Obligations.VerifyWritesVokAndVv : Prop :=
  ∀ s : State,
    exec .verify s =
      .next { s with status := { s.status with vok := decide (fold s.acc = 0xFFFF#16), vv := true } } ∧
    encode .verify = [0x05#8] ∧ Instr.verify.length = 1 ∧
    (∀ rest, decode (0x05#8 :: rest) = .command .verify rest) ∧
    fold 0x00000000#32 ≠ 0xFFFF#16 ∧ fold 0x0000FFFF#32 = 0xFFFF#16 ∧
    fold 0x0001FFFE#32 = 0xFFFF#16 ∧ fold 0xFFFFFFFF#32 = 0xFFFF#16 ∧ fold 0x00006834#32 ≠ 0xFFFF#16

/-! ### Words, sums, fold and finish -/

/-- R43: `Words(d)` by index: how many words, and each one's two octets. -/
def Obligations.WordsByIndex : Prop :=
  ∀ d : List Octet,
    (words d).length = (d.length + 1) >>> 1 ∧
    (∀ k, k < d.length >>> 1 → ∃ hi lo : Octet, d[2 * k]? = some hi ∧ d[2 * k + 1]? = some lo ∧
      (words d)[k]? = some (BitVec.ofNat 16 (hi.toNat * 256 + lo.toNat))) ∧
    (d.length % 2 = 1 → ∃ hi : Octet, d.getLast? = some hi ∧
      (words d)[(d.length + 1) / 2 - 1]? = some (BitVec.ofNat 16 (hi.toNat * 256)))

/-- R44: two spans are paired each from its own start, so their SUMWs add up the words of both; with an even first span that is
the pairing of the two joined. -/
def Obligations.SpansPairIndependently : Prop :=
  ∀ (s t u : State) (a b : List Octet), s.status.err = .none →
    exec (.sumw a) s = .next t → t.status.err = .none →
    exec (.sumw b) t = .next u → u.status.err = .none →
    u.acc.toNat = s.acc.toNat + ((words a ++ words b).map BitVec.toNat).sum ∧
    (a.length % 2 = 0 → words a ++ words b = words (a ++ b)) ∧
    (a.length % 2 = 1 → words a ++ words b = words (a ++ 0x00#8 :: b))

/-- R85, less its sentence about ACC after a fault: a cut at an even offset leaves the same fault outcome, and the same ACC when
no fault occurs (log entry 14). -/
def Obligations.EvenSplitSameFaultSameAccWithoutFault : Prop :=
  ∀ (s : State) (a b : List Octet), s.status.err = .none → s.stream = [] → a.length % 2 = 0 →
    (a ++ b).length ≤ 65535 →
    let one := runEngine (s.append (encodeAll [.sumw (a ++ b)]))
    let two := runEngine (s.append (encodeAll [.sumw a, .sumw b]))
    one.status = two.status ∧ one.fop = two.fop ∧ (one.status.err = .none → one.acc = two.acc)

/-- R85 word for word, "leave the same `ACC` and the same fault outcome", also where the second span overflows: ACC then differs
(R84 freezes it before the faulting SUMW, as R86 says), so this is expected to fail (log entry 14). -/
def Obligations.EvenSplitLeavesTheSameAccAlways : Prop :=
  ∀ (s : State) (a b : List Octet), s.status.err = .none → s.stream = [] → a.length % 2 = 0 →
    (a ++ b).length ≤ 65535 →
    let one := runEngine (s.append (encodeAll [.sumw (a ++ b)]))
    let two := runEngine (s.append (encodeAll [.sumw a, .sumw b]))
    one.acc = two.acc ∧ one.status = two.status ∧ one.fop = two.fop

/-- R86: the order of SUMW commands does not change whether an overflow occurs, nor ACC when none does. Of ACC after an overflow
it says nothing, since R86 lets it differ. -/
def Obligations.SumwOrderSameOverflowSameAccWithoutFault : Prop :=
  ∀ (s : State) (ds es : List (List Octet)), s.status.err = .none → s.stream = [] →
    (∀ d ∈ ds, d.length ≤ 65535) → ds.Perm es →
    let t := runEngine (s.append (encodeAll (ds.map .sumw)))
    let u := runEngine (s.append (encodeAll (es.map .sumw)))
    (t.status.err = .none ∨ t.status.err = .accOverflow) ∧
    t.status = u.status ∧ (t.status.err = .none → t = u) ∧
    (t.status.err = .none ↔
      s.acc.toNat + (ds.map (fun d => ((words d).map BitVec.toNat).sum)).sum ≤ 0xFFFFFFFF)

/-- R87: 65537 words never overflow from ACC 0, 65538 may; a datagram's three spans sum to at most 0x80057FFA, so summing them
never overflows. -/
def Obligations.OverflowBound : Prop :=
  (∀ (s : State) (ds : List (List Octet)), s.status.err = .none → s.stream = [] → s.acc = 0 →
    (∀ d ∈ ds, d.length ≤ 65535) → (ds.map (fun d => (words d).length)).sum ≤ 65537 →
    (runEngine (s.append (encodeAll (ds.map .sumw)))).status.err = .none) ∧
  (∃ ds : List (List Octet), (∀ d ∈ ds, d.length ≤ 65535) ∧ (ds.map (fun d => (words d).length)).sum = 65538 ∧
    (runEngine (State.reset.append (encodeAll (ds.map .sumw)))).status.err = .accOverflow) ∧
  (∀ (s : State) (p h d : List Octet), s.status.err = .none → s.stream = [] →
    p.length = 12 → h.length = 8 → d.length ≤ 65527 →
    sourceSum p h d ≤ 0x80057FFA ∧
    (runEngine (s.append (encodeAll (csum3 p h d)))).status.err = .none ∧
    (runEngine (s.append (encodeAll (verify3 p h d)))).status.err = .none)

/-- R100: `Fold` is the result of the loop, run until its condition fails. -/
def Obligations.FoldIsTheLoopRunToItsEnd : Prop :=
  ∀ acc : BitVec 32, ∃ k, FoldRuns acc.toNat k (fold acc).toNat ∧
    ∀ k' out, FoldRuns acc.toNat k' out → k' = k ∧ out = (fold acc).toNat

/-- R101: at most two passes and two are reached; zero only from zero; the residue modulo 0xFFFF; which sums give 0xFFFF; and
what one pass does to a sum. -/
def Obligations.FoldProperties : Prop :=
  (∀ n : Nat, foldStep n + 0xFFFF * (n >>> 16) = n ∧ (n ≤ 0xFFFFFFFF → foldStep n ≤ 0x1FFFE) ∧
    (0xFFFF < n → n ≤ 0x1FFFE → foldStep n ≤ 0xFFFF) ∧ (0xFFFF < n → 1 ≤ foldStep n)) ∧
  (∀ (acc : BitVec 32) (k out : Nat), FoldRuns acc.toNat k out → k ≤ 2) ∧
  FoldRuns 0x0001FFFF 2 0x0001 ∧
  (∀ acc : BitVec 32, fold acc = 0 ↔ acc = 0) ∧
  (∀ acc : BitVec 32, acc ≠ 0 →
    1 ≤ (fold acc).toNat ∧ (fold acc).toNat % 0xFFFF = acc.toNat % 0xFFFF ∧
    (fold acc).toNat = (acc.toNat - 1) % 0xFFFF + 1) ∧
  (∀ acc : BitVec 32, fold acc = 0xFFFF#16 ↔ 0 < acc.toNat ∧ acc.toNat % 0xFFFF = 0)

/-- R102: `Finish` is the one's complement with zero mapped to all-ones. -/
def Obligations.FinishComplementsAndMapsZero : Prop :=
  ∀ f : BitVec 16,
    (0xFFFF - f.toNat ≠ 0 → (finish f).toNat = 0xFFFF - f.toNat) ∧
    (0xFFFF - f.toNat = 0 → (finish f).toNat = 0xFFFF)

/-- R105: after a COMPUTE the result is never 0, and which sums give 0xFFFF. -/
def Obligations.ComputedResultIsNeverZero : Prop :=
  ∀ s : State, ∃ t, exec .compute s = .next t ∧
    t.result ≠ 0x0000#16 ∧
    (t.result = 0xFFFF#16 ↔ fold s.acc = 0x0000#16 ∨ fold s.acc = 0xFFFF#16) ∧
    (t.result = 0xFFFF#16 ↔ s.acc = 0 ∨ (0 < s.acc.toNat ∧ s.acc.toNat % 0xFFFF = 0)) ∧
    (t.result ≠ 0xFFFF#16 → t.result.toNat = 0xFFFF - (fold s.acc).toNat ∧
      1 ≤ t.result.toNat ∧ t.result.toNat ≤ 0xFFFE)

/-- R106: the verdict of VERIFY is "a positive multiple of 0xFFFF". -/
def Obligations.VerdictIsAPositiveMultiple : Prop :=
  ∀ s : State, ∃ t, exec .verify s = .next t ∧ t.status.vv = true ∧
    (t.status.vok = true ↔ 0 < s.acc.toNat ∧ s.acc.toNat % 0xFFFF = 0)

/-! ### Faults -/

/-- R121, R122: the two faults: exactly when each is taken, by the octets at the front and the sum alone, and the whole state
each leaves. -/
def Obligations.FaultsExactlyAsTabled : Prop :=
  ∀ s t : State, step s = .next t →
    s.status.err = .none ∧
    (t.status.err = .illegalOpcode ↔
      ∃ op rest, s.stream = op :: rest ∧ illegalOctet op = true) ∧
    (t.status.err = .accOverflow ↔
      ∃ (o₁ o₂ : Octet) (d rest : List Octet), s.stream = 0x03#8 :: o₁ :: o₂ :: (d ++ rest) ∧
        d.length = o₁.toNat * 256 + o₂.toNat ∧ 0xFFFFFFFF < sumWords s.acc.toNat d) ∧
    (∀ op rest, s.stream = op :: rest → illegalOctet op = true →
      t = { s with status := { s.status with err := .illegalOpcode }, fop := op, pos := s.pos + 1, stream := rest }) ∧
    (∀ (o₁ o₂ : Octet) (d rest : List Octet), s.stream = 0x03#8 :: o₁ :: o₂ :: (d ++ rest) →
      d.length = o₁.toNat * 256 + o₂.toNat → 0xFFFFFFFF < sumWords s.acc.toNat d →
      t = { s with status := { s.status with err := .accOverflow }, fop := 0x03#8,
                   pos := s.pos + (3 + d.length), stream := rest })

/-- R123: the fault state. No next state; appended octets stay unconsumed; the window is frozen and readable; it is no successful end;
reset leaves it. That a list of moves goes on past an engine move that is not enabled is the model's choice (log entry 10). -/
def Obligations.FaultStateLastsUntilReset : Prop :=
  ∀ s : State, s.status.err ≠ .none →
    (¬ ∃ t, step s = .next t) ∧ s.endsSuccessfully = false ∧
    (∀ ms : List Move, .reset ∉ ms →
      schedule ms s = { s with stream := s.stream ++ appended ms } ∧
      ∀ k, (schedule ms s).readback k = s.readback k) ∧
    ∃ t, Move.reset.apply s = .next t ∧ t.status.err = .none

/-! ### Whole-machine rules and invariants -/

/-- R22, R24, R25, R27, R121: every engine step keeps the invariant. -/
def Obligations.EveryStepKeepsTheInvariant : Prop :=
  ∀ s t : State, s.Inv → step s = .next t → t.Inv

/-- R32, and the rules of the invariant (R22, R24, R25, R27, R121): the reset state has the invariant. -/
def Obligations.ResetHasTheInvariant : Prop := State.reset.Inv

/-- R22, R24, R25, R27, R121 (the invariant's clauses), R130 and, for the reset move, R32 and R140: the invariant after any
interleaving of engine steps, appends, reads and resets, from any state that has it. That an interleaving is a list of moves, in
which a move that is not enabled leaves the state as it is, is the model's choice (log entry 10). -/
def Obligations.EveryScheduleKeepsTheInvariant : Prop :=
  ∀ (s : State) (ms : List Move), s.Inv → (schedule ms s).Inv

/-- R24, R25: only COMPUTE writes RESULT and RV, only VERIFY writes VV and VOK, and a valid bit never falls in a step. -/
def Obligations.ResultsChangeOnlyByTheirCommand : Prop :=
  ∀ s t : State, step s = .next t →
    (s.status.rv = true → t.status.rv = true) ∧
    (s.status.vv = true → t.status.vv = true) ∧
    ((t.result ≠ s.result ∨ t.status.rv ≠ s.status.rv) → s.stream.head? = some 0x04#8) ∧
    ((t.status.vv ≠ s.status.vv ∨ t.status.vok ≠ s.status.vok) → s.stream.head? = some 0x05#8) ∧
    (s.stream.head? = some 0x04#8 → t.status.rv = true) ∧
    (s.stream.head? = some 0x05#8 → t.status.vv = true ∧ t.status.vok = decide (fold s.acc = 0xFFFF#16)) ∧
    ((s.status.vv = false → s.status.vok = false) → t.status.vv = false → t.status.vok = false)

/-- R31: no command reads a flag. Two engines without a fault that agree on ACC and the stream take the same step, whatever their
other registers hold: every other register ends equal in both, or is unchanged in each. -/
def Obligations.NoCommandReadsAFlag : Prop :=
  ∀ s s' t : State, s.status.err = .none → s'.status.err = .none → s.acc = s'.acc → s.stream = s'.stream →
    step s = .next t →
    ∃ t', step s' = .next t' ∧ t'.acc = t.acc ∧ t'.stream = t.stream ∧ t'.status.err = t.status.err ∧
      t'.pos - s'.pos = t.pos - s.pos ∧
      (t'.result = t.result ∨ (t'.result = s'.result ∧ t.result = s.result)) ∧
      (t'.status.rv = t.status.rv ∨ (t'.status.rv = s'.status.rv ∧ t.status.rv = s.status.rv)) ∧
      (t'.status.vv = t.status.vv ∨ (t'.status.vv = s'.status.vv ∧ t.status.vv = s.status.vv)) ∧
      (t'.status.vok = t.status.vok ∨ (t'.status.vok = s'.status.vok ∧ t.status.vok = s.status.vok)) ∧
      (t'.fop = t.fop ∨ (t'.fop = s'.fop ∧ t.fop = s.fop)) ∧
      (t.status.err ≠ .none → t'.fop = t.fop)

/-- R111: the same commands from the same ACC give the same ACC and fault, the same RESULT when they hold a COMPUTE and the
same VOK when they hold a VERIFY; a repeated COMPUTE reproduces its RESULT. -/
def Obligations.SameCommandsSameResults : Prop :=
  (∀ (s s' : State) (is : List Instr), s.status.err = .none → s'.status.err = .none →
    s.stream = [] → s'.stream = [] → s.acc = s'.acc → (∀ i ∈ is, i.wf = true) →
    let t := runEngine (s.append (encodeAll is))
    let t' := runEngine (s'.append (encodeAll is))
    t.acc = t'.acc ∧ t.status.err = t'.status.err ∧
    (t.status.err = .none → .compute ∈ is → t.result = t'.result) ∧
    (t.status.err = .none → .verify ∈ is → t.status.vok = t'.status.vok)) ∧
  (∀ s : State, ∃ t, exec .compute s = .next t ∧ t.acc = s.acc ∧ exec .compute t = .next t)

/-! ### The two agents -/

/-- R51, and the append and read rows of R130: an enabled step is not changed by octets appended behind it; no move but a reset
does anything to the stream other than taking octets off its front and appending at its end; an append changes the stream
alone, so no register, and a read changes nothing. -/
def Obligations.StreamIsAppendOnly : Prop :=
  (∀ (s t : State) (os : List Octet), step s = .next t → step (s.append os) = .next (t.append os)) ∧
  (∀ (s t : State) (m : Move), m ≠ .reset → m.apply s = .next t → ∃ n, n ≤ s.stream.length ∧
    t.stream = s.stream.drop n ++ m.octets ∧ t.pos = s.pos + n) ∧
  (∀ (s : State) (first : Octet) (more : List Octet),
    (Move.append first more).apply s = .next { s with stream := s.stream ++ first :: more }) ∧
  (∀ (s t : State) (ks : List Nat), (Move.read ks).apply s = .next t → t = s)

/-- R49: whatever the interleaving, a read answers what it would answer after a prefix of the commands, a later read after a
prefix at least as long, and once the engine is quiescent after every command. That an interleaving is a list of moves, in
which a move that is not enabled changes nothing, is the model's choice (log entry 10). -/
def Obligations.ReadsShowAGrowingPrefix : Prop :=
  ∀ (s : State) (ms ns : List Move), .reset ∉ ms → .reset ∉ ns →
    (∃ j k, j ≤ k ∧
      (schedule ms s).append (appended ns) = engineSteps j (s.append (appended (ms ++ ns))) ∧
      schedule (ms ++ ns) s = engineSteps k (s.append (appended (ms ++ ns))) ∧
      ∀ ks, (Move.read ks).answer (schedule ms s) =
          (Move.read ks).answer (engineSteps j (s.append (appended (ms ++ ns)))) ∧
        (Move.read ks).answer (schedule (ms ++ ns) s) =
          (Move.read ks).answer (engineSteps k (s.append (appended (ms ++ ns))))) ∧
    ((schedule ms s).quiescent = true → schedule ms s = runEngine (s.append (appended ms)) ∧
      ∀ ks, (Move.read ks).answer (schedule ms s) = (Move.read ks).answer (runEngine (s.append (appended ms))))

/-- R71, R123, R149, under the model's names for the absence of a step (log entry 1): which stop `step` answers in which state, that
it refuses nothing, and that an engine move that is not enabled leaves the state as it is (log entry 10). -/
def Obligations.StopsAreNamedByTheirCause : Prop :=
  ∀ s : State,
    (step s = .fault .engineFaulted ↔ s.status.err ≠ .none) ∧
    (step s = .fault .idle ↔ s.endsSuccessfully = true) ∧
    (step s = .fault .incompleteCommand ↔
      s.status.err = .none ∧ s.stream ≠ [] ∧ startsComplete s.stream = false) ∧
    (∀ r, step s ≠ .refused r) ∧
    (s.quiescent = true → outcomeState s (Move.engine.apply s) = s)

/-- R148: in a fair infinite interleaving without a reset, every enabled engine step is taken, the same step with exactly the
octets of the moves made meanwhile behind it; and where the host appends no more from some move on, the engine becomes quiescent
for good, in the state in which it ends when given all octets at once. The form of an infinite interleaving, and of fairness, is log entries 10 and 15. -/
def Obligations.FairRunsTakeEveryEnabledStep : Prop :=
  ∀ (μ : Nat → Move) (s : State), Fair μ s → (∀ n, μ n ≠ .reset) →
    (∀ n t, step (stateAt μ s n) = .next t →
      ∃ m, n ≤ m ∧ μ m = .engine ∧
        stateAt μ s (m + 1) = t.append (appended ((List.range' n (m - n)).map μ))) ∧
    (∀ k, (∀ n, k ≤ n → (μ n).octets = []) →
      ∃ m, ∀ n, m ≤ n → (stateAt μ s n).quiescent = true ∧
        stateAt μ s n = runEngine (s.append (appended ((List.range k).map μ))))

/-- R148: fairness shuts out no finite interleaving. Every list of moves is the beginning of a fair infinite one, which passes
through the state after the list. The form of both is log entries 10 and 15. -/
def Obligations.EveryScheduleExtendsFairly : Prop :=
  ∀ (s : State) (ms : List Move),
    Fair (thenEngine ms) s ∧ (∀ n m, ms[n]? = some m → thenEngine ms n = m) ∧
    stateAt (thenEngine ms) s ms.length = schedule ms s

/-- R129: a move at one instance leaves every other instance as it was. -/
def Obligations.InstancesShareNothing : Prop :=
  ∀ (p q : List State) (k : Nat) (m : Move), platformMove k m p = .next q →
    (∃ s t, p[k]? = some s ∧ m.apply s = .next t ∧ q[k]? = some t) ∧
    q.length = p.length ∧ ∀ j, j ≠ k → q[j]? = p[j]?

/-! ### Checksums of datagrams -/

/-- R109: a datagram whose header carries the checksum that CSUM3 gave verifies, where neither run overflows; in the
three-span use neither does. -/
def Obligations.ComputedChecksumVerifies : Prop :=
  ∀ (s s' : State) (p h d : List Octet), s.status.err = .none → s.stream = [] →
    s'.status.err = .none → s'.stream = [] →
    p.length ≤ 65535 → d.length ≤ 65535 → h.length = 8 →
    h[6]? = some 0x00#8 → h[7]? = some 0x00#8 →
    let t := runEngine (s.append (encodeAll (csum3 p h d)))
    let u := runEngine (s'.append (encodeAll (verify3 p (withChecksumField h t.result) d)))
    (t.status.err = .none → u.status.err = .none → u.status.vok = true) ∧
    (p.length = 12 → d.length ≤ 65527 → t.status.err = .none ∧ u.status.err = .none)

/-- R110: the pseudo-commands give the source's `compute`, `verify` and `sumWords`. -/
def Obligations.PseudoCommandsRealiseTheSource : Prop :=
  ∀ (s : State) (p h d : List Octet), s.status.err = .none → s.stream = [] →
    p.length ≤ 65535 → h.length ≤ 65535 → d.length ≤ 65535 →
    (sourceSum p h d ≤ 0xFFFFFFFF →
      (let t := runEngine (s.append (encodeAll (csum3 p h d)))
       t.endsSuccessfully = true ∧ t.result = sourceCompute p h d ∧ t.status.rv = true) ∧
      (let t := runEngine (s.append (encodeAll (verify3 p h d)))
       t.endsSuccessfully = true ∧ t.status.vok = sourceVerify p h d ∧ t.status.vv = true)) ∧
    (∀ init : BitVec 32, sumWords init.toNat d ≤ 0xFFFFFFFF →
      let t := runEngine (s.append (encodeAll (sumwi init d)))
      t.endsSuccessfully = true ∧ t.acc.toNat = sumWords init.toNat d)

/-- R56: in the three-span use, padding per span and padding the joined buffer give the same sum. -/
def Obligations.ThreeSpanPaddingAgrees : Prop :=
  ∀ (init : Nat) (p h d : List Octet), p.length = 12 → h.length = 8 →
    sumWords (sumWords (sumWords init p) h) d = sumWords init (p ++ h ++ d)

/-- R53, R54: the octets of the pseudo-header and header spans. -/
def Obligations.DatagramSpanLayouts : Prop :=
  (∀ (src dst : BitVec 32) (len : BitVec 16), ∃ a₀ a₁ a₂ a₃ b₀ b₁ b₂ b₃ l₀ l₁ : Octet,
    pseudoHeaderSpan src dst len = [a₀, a₁, a₂, a₃, b₀, b₁, b₂, b₃, 0x00#8, 0x11#8, l₀, l₁] ∧
    src.toNat = ((a₀.toNat * 256 + a₁.toNat) * 256 + a₂.toNat) * 256 + a₃.toNat ∧
    dst.toNat = ((b₀.toNat * 256 + b₁.toNat) * 256 + b₂.toNat) * 256 + b₃.toNat ∧
    len.toNat = l₀.toNat * 256 + l₁.toNat) ∧
  (∀ sp dp len ck : BitVec 16, ∃ s₀ s₁ d₀ d₁ l₀ l₁ c₀ c₁ : Octet,
    headerSpan sp dp len ck = [s₀, s₁, d₀, d₁, l₀, l₁, c₀, c₁] ∧
    sp.toNat = s₀.toNat * 256 + s₁.toNat ∧ dp.toNat = d₀.toNat * 256 + d₁.toNat ∧
    len.toNat = l₀.toNat * 256 + l₁.toNat ∧ ck.toNat = c₀.toNat * 256 + c₁.toNat ∧
    zeroChecksumField (headerSpan sp dp len ck) = headerSpan sp dp len 0x0000#16)

/-- R107: the absent checksum, the host's exemption, and that the engine never produces it. -/
def Obligations.AbsentChecksumConvention : Prop :=
  (∀ v : BitVec 16, isAbsent v = true ↔ v = 0x0000#16) ∧
  (∀ sp dp len v : BitVec 16,
    isAbsent v = true ↔ (headerSpan sp dp len v).drop 6 = [0x00#8, 0x00#8]) ∧
  (∀ (p d : List Octet) (sp dp len v : BitVec 16),
    (isAbsent v = true → hostVerify p (headerSpan sp dp len v) d = none) ∧
    (isAbsent v = false →
      hostVerify p (headerSpan sp dp len v) d = some (verify3 p (headerSpan sp dp len v) d))) ∧
  (∀ s : State, ∃ t, exec .compute s = .next t ∧ isAbsent t.result = false)

/-- R108: the wire form of a checksum, where RESULT shows it, and how the host copies it into the header. -/
def Obligations.ChecksumSerialization : Prop :=
  (∀ v : BitVec 16, octets16 v = [v.extractLsb' 8 8, v.extractLsb' 0 8]) ∧
  (∀ s : State, ∃ hi lo : Octet, octets16 s.result = [hi, lo] ∧ s.readback 4 = .ok hi ∧ s.readback 5 = .ok lo) ∧
  (∀ (h : List Octet) (c : BitVec 16), h.length = 8 →
    (withChecksumField h c).length = 8 ∧ (withChecksumField h c).drop 6 = octets16 c ∧
    (withChecksumField h c).take 6 = h.take 6)

/-! ### The assembler -/

/-- R68: every well-formed command is spelt by a statement that assembles to its encoding; what is out of range is refused. That
a list that is too long is refused as spanTooLong also where it holds a number out of range is the model's choice
(log entry 12); R68 gives the refusal and not which one is named. -/
def Obligations.AssemblerAgreesWithTheEncoding : Prop :=
  (∀ i : Instr, i.wf = true → assembleLine (AsmLine.ofInstr i) = .ok (encode i)) ∧
  (∀ imm : Nat, 0xFFFFFFFF < imm → assembleLine (.ldacc imm) = .error .outOfRange) ∧
  (∀ bs : List Nat, 65535 < bs.length → assembleLine (.sumw bs) = .error .spanTooLong) ∧
  (∀ bs : List Nat, (∃ b ∈ bs, 0xFF < b) →
    (∃ e, assembleLine (.sumw bs) = .error e) ∧ assembleLine (.byte bs) = .error .outOfRange) ∧
  (∀ os : List Octet, assembleLine (.byte (os.map BitVec.toNat)) = .ok os)

/-- R69: the expansions of the three pseudo-commands, under the assembler's refusals. -/
def Obligations.PseudoCommandExpansions : Prop :=
  ∀ (p h d : List Octet) (init : BitVec 32), p.length ≤ 65535 → h.length ≤ 65535 → d.length ≤ 65535 →
    assembleLine (.csum3 (p.map BitVec.toNat) (h.map BitVec.toNat) (d.map BitVec.toNat)) =
      .ok (encode .clr ++ encode (.sumw p) ++ encode (.sumw h) ++ encode (.sumw d) ++ encode .compute) ∧
    assembleLine (.verify3 (p.map BitVec.toNat) (h.map BitVec.toNat) (d.map BitVec.toNat)) =
      .ok (encode .clr ++ encode (.sumw p) ++ encode (.sumw h) ++ encode (.sumw d) ++ encode .verify) ∧
    assembleLine (.sumwi init.toNat (d.map BitVec.toNat)) =
      .ok (encode (.ldacc init) ++ encode (.sumw d))
end

