-- ==== Sys2Proof/Laws/Operands.lean ====
section
/-! SUPPORT. The operand operations as arithmetic: byte order, words of a span, sums. -/

namespace Sys2Proof.Machine

/-- Two octets assembled big-endian, as a number (R63). -/
theorem be16_toNat (hi lo : Octet) : (be16 hi lo).toNat = hi.toNat * 256 + lo.toNat := by
  have h : lo.toNat < 2 ^ 8 := lo.isLt
  simp only [be16, BitVec.toNat_append, Nat.shiftLeft_eq]
  rw [← Nat.shiftLeft_eq, ← Nat.shiftLeft_add_eq_or_of_lt h, Nat.shiftLeft_eq]

/-- Four octets assembled big-endian, as a number (R64). -/
theorem be32_toNat (o₁ o₂ o₃ o₄ : Octet) : (be32 o₁ o₂ o₃ o₄).toNat =
    ((o₁.toNat * 256 + o₂.toNat) * 256 + o₃.toNat) * 256 + o₄.toNat := by
  have h₂ : o₂.toNat < 2 ^ 8 := o₂.isLt
  have h₃ : o₃.toNat < 2 ^ 8 := o₃.isLt
  have h₄ : o₄.toNat < 2 ^ 8 := o₄.isLt
  simp only [be32, BitVec.toNat_append]
  rw [← Nat.shiftLeft_add_eq_or_of_lt h₄, ← Nat.shiftLeft_add_eq_or_of_lt h₃,
    ← Nat.shiftLeft_add_eq_or_of_lt h₂]
  simp only [Nat.shiftLeft_eq]

/-- The two octets of a 16-bit value assemble to it. -/
theorem be16_extract (v : Word) : be16 (v.extractLsb' 8 8) (v.extractLsb' 0 8) = v := by
  apply BitVec.eq_of_toNat_eq
  have h : v.toNat < 2 ^ 16 := v.isLt
  rw [be16_toNat]
  simp only [BitVec.extractLsb'_toNat, Nat.shiftRight_eq_div_pow]
  omega

/-- The four octets of a 32-bit value assemble to it. -/
theorem be32_extract (v : Acc32) :
    be32 (v.extractLsb' 24 8) (v.extractLsb' 16 8) (v.extractLsb' 8 8) (v.extractLsb' 0 8) = v := by
  apply BitVec.eq_of_toNat_eq
  have h : v.toNat < 2 ^ 32 := v.isLt
  rw [be32_toNat]
  simp only [BitVec.extractLsb'_toNat, Nat.shiftRight_eq_div_pow]
  omega

/-- The octets of an assembled 16-bit value are those it was assembled from. -/
theorem octets16_be16 (hi lo : Octet) : octets16 (be16 hi lo) = [hi, lo] := by
  have h₁ := hi.isLt
  have h₂ := lo.isLt
  simp only [octets16, List.cons.injEq, and_true]
  constructor <;> apply BitVec.eq_of_toNat_eq <;>
    simp only [BitVec.extractLsb'_toNat, be16_toNat, Nat.shiftRight_eq_div_pow] <;> omega

/-- The octets of an assembled 32-bit value are those it was assembled from. -/
theorem octets32_be32 (o₁ o₂ o₃ o₄ : Octet) : octets32 (be32 o₁ o₂ o₃ o₄) = [o₁, o₂, o₃, o₄] := by
  have h₁ := o₁.isLt
  have h₂ := o₂.isLt
  have h₃ := o₃.isLt
  have h₄ := o₄.isLt
  simp only [octets32, List.cons.injEq, and_true]
  refine ⟨?_, ?_, ?_, ?_⟩ <;> apply BitVec.eq_of_toNat_eq <;>
    simp only [BitVec.extractLsb'_toNat, be32_toNat, Nat.shiftRight_eq_div_pow] <;> omega

@[simp] theorem words_nil : words [] = [] := rfl
@[simp] theorem words_single (o : Octet) : words [o] = [be16 o 0x00#8] := rfl
@[simp] theorem words_pair (o₀ o₁ : Octet) (d : List Octet) :
    words (o₀ :: o₁ :: d) = be16 o₀ o₁ :: words d := rfl

/-- An even span's pairing ends at its end. -/
theorem words_append_of_even : ∀ a b : List Octet, a.length % 2 = 0 → words (a ++ b) = words a ++ words b
  | [], _, _ => rfl
  | [_], _, h => by simp at h
  | o₀ :: o₁ :: a, b, h => by
    have ha : a.length % 2 = 0 := by simp only [List.length_cons] at h; omega
    simp [words_append_of_even a b ha]

/-- A span's sum, taken on from where another left off. -/
theorem sumWords_eq (init : Nat) (d : List Octet) :
    sumWords init d = init + ((words d).map BitVec.toNat).sum := rfl

/-- The running sum never falls. -/
theorem le_sumWords (init : Nat) (d : List Octet) : init ≤ sumWords init d := by
  simp [sumWords_eq]

end Sys2Proof.Machine
end

