-- ==== Sys2Proof/Laws/Decode.lean ====
section
/-! SUPPORT. What decoding can answer, command by command. -/

namespace Sys2Proof

open Machine

@[simp] theorem decode_nil : decode [] = .empty := rfl
@[simp] theorem decode_clr (r : List Octet) : decode (0x01#8 :: r) = .command .clr r := rfl
@[simp] theorem decode_ldacc (r : List Octet) : decode (0x02#8 :: r) = decodeLdacc r := rfl
@[simp] theorem decode_sumw (r : List Octet) : decode (0x03#8 :: r) = decodeSumw r := rfl
@[simp] theorem decode_compute (r : List Octet) : decode (0x04#8 :: r) = .command .compute r := rfl
@[simp] theorem decode_verify (r : List Octet) : decode (0x05#8 :: r) = .command .verify r := rfl

/-- The one check of well-formedness, as a bound (R63). -/
@[simp] theorem wf_sumw (d : List Octet) : (Instr.sumw d).wf = true ↔ d.length ≤ 65535 :=
  decide_eq_true_iff

/-- A complete SUMW decodes to its span. -/
theorem decodeSumw_append (o₁ o₂ : Octet) (d rest : List Octet) (h : d.length = (be16 o₁ o₂).toNat) :
    decodeSumw (o₁ :: o₂ :: (d ++ rest)) = .command (.sumw d) rest := by
  simp [decodeSumw, ← h]

/-- What the front of a stream can be: one case per outcome of decoding. -/
theorem decode_cases (os : List Octet) :
    os = [] ∧ decode os = .empty ∨
    (∃ r, os = 0x01#8 :: r ∧ decode os = .command .clr r) ∨
    (∃ o₁ o₂ o₃ o₄ r, os = 0x02#8 :: o₁ :: o₂ :: o₃ :: o₄ :: r ∧
      decode os = .command (.ldacc (be32 o₁ o₂ o₃ o₄)) r) ∨
    (∃ r, os = 0x02#8 :: r ∧ r.length < 4 ∧ decode os = .incomplete) ∨
    (∃ o₁ o₂ d r, os = 0x03#8 :: o₁ :: o₂ :: (d ++ r) ∧ d.length = (be16 o₁ o₂).toNat ∧
      decode os = .command (.sumw d) r) ∨
    (∃ r, os = 0x03#8 :: r ∧ r.length < 2 ∧ decode os = .incomplete) ∨
    (∃ o₁ o₂ r, os = 0x03#8 :: o₁ :: o₂ :: r ∧ r.length < (be16 o₁ o₂).toNat ∧ decode os = .incomplete) ∨
    (∃ r, os = 0x04#8 :: r ∧ decode os = .command .compute r) ∨
    (∃ r, os = 0x05#8 :: r ∧ decode os = .command .verify r) ∨
    (∃ op r, os = op :: r ∧ (op.toNat = 0 ∨ 6 ≤ op.toNat) ∧ decode os = .illegal op) := by
  rcases os with - | ⟨op, r⟩
  · exact .inl ⟨rfl, rfl⟩
  by_cases h₁ : op = 0x01#8
  · subst h₁; exact .inr (.inl ⟨r, rfl, rfl⟩)
  by_cases h₂ : op = 0x02#8
  · subst h₂
    rcases r with - | ⟨o₁, - | ⟨o₂, - | ⟨o₃, - | ⟨o₄, r⟩⟩⟩⟩
    · exact .inr (.inr (.inr (.inl ⟨_, rfl, by simp, rfl⟩)))
    · exact .inr (.inr (.inr (.inl ⟨_, rfl, by simp, rfl⟩)))
    · exact .inr (.inr (.inr (.inl ⟨_, rfl, by simp, rfl⟩)))
    · exact .inr (.inr (.inr (.inl ⟨_, rfl, by simp, rfl⟩)))
    · exact .inr (.inr (.inl ⟨o₁, o₂, o₃, o₄, r, rfl, rfl⟩))
  by_cases h₃ : op = 0x03#8
  · subst h₃
    rcases r with - | ⟨o₁, - | ⟨o₂, r⟩⟩
    · exact .inr (.inr (.inr (.inr (.inr (.inl ⟨_, rfl, by simp, rfl⟩)))))
    · exact .inr (.inr (.inr (.inr (.inr (.inl ⟨_, rfl, by simp, rfl⟩)))))
    by_cases hl : (be16 o₁ o₂).toNat ≤ r.length
    · have hd : (r.take (be16 o₁ o₂).toNat).length = (be16 o₁ o₂).toNat := by simp [hl]
      refine .inr (.inr (.inr (.inr (.inl
        ⟨o₁, o₂, r.take (be16 o₁ o₂).toNat, r.drop (be16 o₁ o₂).toNat, by simp, hd, ?_⟩))))
      simp [decodeSumw, hl]
    · refine .inr (.inr (.inr (.inr (.inr (.inr (.inl ⟨o₁, o₂, r, rfl, by omega, ?_⟩))))))
      simp [decodeSumw, hl]
  by_cases h₄ : op = 0x04#8
  · subst h₄; exact .inr (.inr (.inr (.inr (.inr (.inr (.inr (.inl ⟨r, rfl, rfl⟩)))))))
  by_cases h₅ : op = 0x05#8
  · subst h₅; exact .inr (.inr (.inr (.inr (.inr (.inr (.inr (.inr (.inl ⟨r, rfl, rfl⟩))))))))
  · refine .inr (.inr (.inr (.inr (.inr (.inr (.inr (.inr (.inr ⟨op, r, rfl, ?_, ?_⟩))))))))
    · have := BitVec.toNat_ne.1 h₁
      have := BitVec.toNat_ne.1 h₂
      have := BitVec.toNat_ne.1 h₃
      have := BitVec.toNat_ne.1 h₄
      have := BitVec.toNat_ne.1 h₅
      simp only [BitVec.toNat_ofNat] at *
      omega
    · simp [decode, opClr, opLdacc, opSumw, opCompute, opVerify, h₁, h₂, h₃, h₄, h₅]

/-- A decoded command's octets are there, and what follows them is the rest. -/
theorem decode_command_rest {os rest : List Octet} {i : Instr} (h : decode os = .command i rest) :
    i.length ≤ os.length ∧ rest = os.drop i.length := by
  rcases decode_cases os with ⟨rfl, e⟩ | ⟨r, rfl, e⟩ | ⟨o₁, o₂, o₃, o₄, r, rfl, e⟩ | ⟨r, rfl, -, e⟩ |
    ⟨o₁, o₂, d, r, rfl, hd, e⟩ | ⟨r, rfl, -, e⟩ | ⟨o₁, o₂, r, rfl, -, e⟩ | ⟨r, rfl, e⟩ | ⟨r, rfl, e⟩ |
    ⟨op, r, rfl, -, e⟩ <;> rw [e] at h <;> cases h <;>
    simp [Instr.length, show ∀ n : Nat, 3 + n = n + 1 + 1 + 1 from fun n => by omega]

end Sys2Proof
end

