-- ==== Sys2Proof/Laws/Flags.lean ====
section
/-! SUPPORT. The fold's pass and the finishing function as arithmetic. -/

namespace Sys2Proof.Machine

/-- One pass of the fold, as a quotient and a remainder. -/
theorem foldStep_eq (n : Nat) : foldStep n = n % 0x10000 + n / 0x10000 := by
  have h : n &&& 0xFFFF = n % 2 ^ 16 := Nat.and_two_pow_sub_one_eq_mod n 16
  simp [foldStep, h, Nat.shiftRight_eq_div_pow]

/-- One pass keeps the residue modulo 0xFFFF. -/
theorem foldStep_mod (n : Nat) : foldStep n % 0xFFFF = n % 0xFFFF := by
  rw [foldStep_eq]; omega

/-- The fold of a 32-bit sum, pass by pass. -/
theorem fold_toNat (acc : Acc32) : (fold acc).toNat =
    if acc.toNat ≤ 0xFFFF then acc.toNat
    else if foldStep acc.toNat ≤ 0xFFFF then foldStep acc.toNat
    else foldStep (foldStep acc.toNat) := by
  have h : acc.toNat < 2 ^ 32 := acc.isLt
  simp only [fold, foldLoop, Config.foldThreshold, foldStep_eq, BitVec.toNat_ofNat]
  split_ifs <;> omega

/-- The finishing function, as a number. -/
theorem finish_toNat (f : Word) :
    (finish f).toNat = if f.toNat = 0xFFFF then 0xFFFF else 0xFFFF - f.toNat := by
  have h : f.toNat < 2 ^ 16 := f.isLt
  have hc : (~~~f).toNat = 2 ^ 16 - 1 - f.toNat := BitVec.toNat_not
  unfold finish Config.zeroReplacement
  split_ifs with h₁ h₂ h₂
  · rfl
  · have := congrArg BitVec.toNat h₁; simp at this; omega
  · exact absurd (BitVec.eq_of_toNat_eq (by rw [hc]; simp; omega)) h₁
  · omega

/-- The finishing function never answers the absent value. -/
theorem finish_ne_zero (f : Word) : finish f ≠ 0x0000#16 := by
  intro h
  have h' := congrArg BitVec.toNat h
  have hf : f.toNat < 2 ^ 16 := f.isLt
  rw [finish_toNat] at h'
  split_ifs at h' with h₁
  · exact absurd h' (by decide)
  · simp at h'; omega

/-- The verdict, as an equation. -/
theorem verdict_eq (acc : Acc32) : verdict acc = decide (fold acc = 0xFFFF#16) := by
  simp [verdict, Config.verifyConstant, beq_eq_decide]

end Sys2Proof.Machine
end

