-- ==== Sys2Proof/Laws/State.lean ====
section
/-! SUPPORT. One lemma per field per update of the state. -/

namespace Sys2Proof.Machine

variable (s : State) (n : Nat) (os : List Octet) (code : ErrCode) (op : Octet)

@[simp] theorem State.consume_acc : (s.consume n).acc = s.acc := rfl
@[simp] theorem State.consume_result : (s.consume n).result = s.result := rfl
@[simp] theorem State.consume_status : (s.consume n).status = s.status := rfl
@[simp] theorem State.consume_fop : (s.consume n).fop = s.fop := rfl
@[simp] theorem State.consume_pos : (s.consume n).pos = s.pos + n := rfl
@[simp] theorem State.consume_stream : (s.consume n).stream = s.stream.drop n := rfl

@[simp] theorem State.setAcc_acc (v : Acc32) : (s.setAcc v).acc = v := rfl
@[simp] theorem State.setAcc_result (v : Acc32) : (s.setAcc v).result = s.result := rfl
@[simp] theorem State.setAcc_status (v : Acc32) : (s.setAcc v).status = s.status := rfl
@[simp] theorem State.setAcc_fop (v : Acc32) : (s.setAcc v).fop = s.fop := rfl
@[simp] theorem State.setAcc_pos (v : Acc32) : (s.setAcc v).pos = s.pos := rfl
@[simp] theorem State.setAcc_stream (v : Acc32) : (s.setAcc v).stream = s.stream := rfl

@[simp] theorem State.setResult_acc (v : Word) : (s.setResult v).acc = s.acc := rfl
@[simp] theorem State.setResult_result (v : Word) : (s.setResult v).result = v := rfl
@[simp] theorem State.setResult_status (v : Word) : (s.setResult v).status = s.status := rfl
@[simp] theorem State.setResult_fop (v : Word) : (s.setResult v).fop = s.fop := rfl
@[simp] theorem State.setResult_pos (v : Word) : (s.setResult v).pos = s.pos := rfl
@[simp] theorem State.setResult_stream (v : Word) : (s.setResult v).stream = s.stream := rfl

@[simp] theorem State.mapStatus_acc (f : Status → Status) : (s.mapStatus f).acc = s.acc := rfl
@[simp] theorem State.mapStatus_result (f : Status → Status) : (s.mapStatus f).result = s.result := rfl
@[simp] theorem State.mapStatus_status (f : Status → Status) : (s.mapStatus f).status = f s.status := rfl
@[simp] theorem State.mapStatus_fop (f : Status → Status) : (s.mapStatus f).fop = s.fop := rfl
@[simp] theorem State.mapStatus_pos (f : Status → Status) : (s.mapStatus f).pos = s.pos := rfl
@[simp] theorem State.mapStatus_stream (f : Status → Status) : (s.mapStatus f).stream = s.stream := rfl

@[simp] theorem State.enterFault_acc : (s.enterFault code op).acc = s.acc := rfl
@[simp] theorem State.enterFault_result : (s.enterFault code op).result = s.result := rfl
@[simp] theorem State.enterFault_status : (s.enterFault code op).status = s.status.setErr code := rfl
@[simp] theorem State.enterFault_fop : (s.enterFault code op).fop = op := rfl
@[simp] theorem State.enterFault_pos : (s.enterFault code op).pos = s.pos := rfl
@[simp] theorem State.enterFault_stream : (s.enterFault code op).stream = s.stream := rfl

@[simp] theorem State.append_acc : (s.append os).acc = s.acc := rfl
@[simp] theorem State.append_result : (s.append os).result = s.result := rfl
@[simp] theorem State.append_status : (s.append os).status = s.status := rfl
@[simp] theorem State.append_fop : (s.append os).fop = s.fop := rfl
@[simp] theorem State.append_pos : (s.append os).pos = s.pos := rfl
@[simp] theorem State.append_stream : (s.append os).stream = s.stream ++ os := rfl

variable (st : Status)

@[simp] theorem Status.setRv_rv : st.setRv.rv = true := rfl
@[simp] theorem Status.setRv_vv : st.setRv.vv = st.vv := rfl
@[simp] theorem Status.setRv_vok : st.setRv.vok = st.vok := rfl
@[simp] theorem Status.setRv_err : st.setRv.err = st.err := rfl

@[simp] theorem Status.setVerdict_rv (b : Bool) : (st.setVerdict b).rv = st.rv := rfl
@[simp] theorem Status.setVerdict_vv (b : Bool) : (st.setVerdict b).vv = true := rfl
@[simp] theorem Status.setVerdict_vok (b : Bool) : (st.setVerdict b).vok = b := rfl
@[simp] theorem Status.setVerdict_err (b : Bool) : (st.setVerdict b).err = st.err := rfl

@[simp] theorem Status.setErr_rv : (st.setErr code).rv = st.rv := rfl
@[simp] theorem Status.setErr_vv : (st.setErr code).vv = st.vv := rfl
@[simp] theorem Status.setErr_vok : (st.setErr code).vok = st.vok := rfl
@[simp] theorem Status.setErr_err : (st.setErr code).err = code := rfl

/-- Two appends are one. -/
theorem State.append_append (ps : List Octet) : (s.append os).append ps = s.append (os ++ ps) := by
  simp [State.append]

/-- Appending nothing changes nothing. -/
@[simp] theorem State.append_nil : s.append [] = s := by simp [State.append]

/-- Octets that are there are consumed the same with more behind them. -/
theorem State.consume_append (h : n ≤ s.stream.length) :
    (s.append os).consume n = (s.consume n).append os := by
  simp [State.append, State.consume, List.drop_append_of_le_length h]

/-- The readback window shows neither POS nor the stream. -/
theorem State.window_of_registers {s t : State} (ha : s.acc = t.acc) (hr : s.result = t.result)
    (hs : s.status = t.status) (hf : s.fop = t.fop) : s.window = t.window := by
  simp [State.window, ha, hr, hs, hf]

end Sys2Proof.Machine
end

