-- ==== Sys2Proof/Laws/Step.lean ====
section
/-! SUPPORT. What a command and a step can do, said once. -/

namespace Sys2Proof.Machine

/-- SUMW when the exact sum fits (R82). -/
theorem exec_sumw_of_fits {d : List Octet} {s : State} (h : sumWords s.acc.toNat d ≤ 0xFFFFFFFF) :
    exec (.sumw d) s = .next (s.setAcc (BitVec.ofNat 32 (sumWords s.acc.toNat d))) :=
  if_neg (Nat.not_lt.2 h)

/-- SUMW when it does not (R84). -/
theorem exec_sumw_of_overflows {d : List Octet} {s : State} (h : 0xFFFFFFFF < sumWords s.acc.toNat d) :
    exec (.sumw d) s = .next (s.enterFault .accOverflow 0x03#8) :=
  if_pos h

/-- Every command answers a next state, one of these. -/
theorem exec_cases (i : Instr) (s : State) :
    (i = .clr ∧ exec i s = .next (s.setAcc 0)) ∨
    (∃ imm, i = .ldacc imm ∧ exec i s = .next (s.setAcc imm)) ∨
    (∃ d, i = .sumw d ∧ sumWords s.acc.toNat d ≤ 0xFFFFFFFF ∧
      exec i s = .next (s.setAcc (BitVec.ofNat 32 (sumWords s.acc.toNat d)))) ∨
    (∃ d, i = .sumw d ∧ 0xFFFFFFFF < sumWords s.acc.toNat d ∧
      exec i s = .next (s.enterFault .accOverflow 0x03#8)) ∨
    (i = .compute ∧ exec i s = .next ((s.setResult (finish (fold s.acc))).mapStatus Status.setRv)) ∨
    (i = .verify ∧ exec i s = .next (s.mapStatus (Status.setVerdict (verdict s.acc)))) := by
  cases i with
  | clr => exact .inl ⟨rfl, rfl⟩
  | ldacc imm => exact .inr (.inl ⟨imm, rfl, rfl⟩)
  | sumw d =>
    by_cases h : 0xFFFFFFFF < sumWords s.acc.toNat d
    · exact .inr (.inr (.inr (.inl ⟨d, rfl, h, exec_sumw_of_overflows h⟩)))
    · exact .inr (.inr (.inl ⟨d, rfl, Nat.le_of_not_lt h, exec_sumw_of_fits (Nat.le_of_not_lt h)⟩))
  | compute => exact .inr (.inr (.inr (.inr (.inl ⟨rfl, rfl⟩))))
  | verify => exact .inr (.inr (.inr (.inr (.inr ⟨rfl, rfl⟩))))

/-- No command touches POS or the stream: the step has consumed its octets. -/
theorem exec_pos_stream {i : Instr} {s t : State} (h : exec i s = .next t) :
    t.pos = s.pos ∧ t.stream = s.stream := by
  rcases exec_cases i s with ⟨-, e⟩ | ⟨_, -, e⟩ | ⟨_, -, -, e⟩ | ⟨_, -, -, e⟩ | ⟨-, e⟩ | ⟨-, e⟩ <;>
    rw [e] at h <;> cases h <;> exact ⟨rfl, rfl⟩

/-- A command does the same with other octets in the stream behind it. -/
theorem exec_append {i : Instr} {s t : State} (os : List Octet) (h : exec i s = .next t) :
    exec i (s.append os) = .next (t.append os) := by
  cases i with
  | clr => cases h; rfl
  | ldacc imm => cases h; rfl
  | sumw d =>
    by_cases hs : 0xFFFFFFFF < sumWords s.acc.toNat d
    · rw [exec_sumw_of_overflows hs] at h; cases h; exact exec_sumw_of_overflows (s := s.append os) hs
    · have hf := Nat.le_of_not_lt hs
      rw [exec_sumw_of_fits hf] at h; cases h; exact exec_sumw_of_fits (s := s.append os) hf
  | compute => cases h; rfl
  | verify => cases h; rfl

/-- An enabled step takes an illegal octet's fault or executes the command it has consumed. -/
theorem step_cases {s t : State} (h : step s = .next t) : s.status.err = .none ∧
    ((∃ op, decode s.stream = .illegal op ∧ t = s.takeIllegal op) ∨
     (∃ i rest, decode s.stream = .command i rest ∧ exec i (s.consume i.length) = .next t)) := by
  unfold step at h
  split at h
  · cases h
  · cases h
  · rename_i he
    refine ⟨he, ?_⟩
    split at h
    · cases h
    · cases h
    · rename_i op hd; cases h; exact .inl ⟨op, hd, rfl⟩
    · rename_i i rest hd; exact .inr ⟨i, rest, hd, h⟩

/-- The step of an engine without a fault, by what its stream decodes to. -/
theorem step_of_none {s : State} (he : s.status.err = .none) : step s =
    match decode s.stream with
    | .empty => .fault .idle
    | .incomplete => .fault .incompleteCommand
    | .illegal op => .next (s.takeIllegal op)
    | .command i _ => exec i (s.consume i.length) := by
  cases h : decode s.stream <;> simp [step, he, h]

/-- No step is refused. -/
theorem step_not_refused (s : State) (r : Refusal) : step s ≠ .refused r := by
  unfold step
  split
  · simp
  · simp
  · split
    · simp
    · simp
    · simp
    · rename_i i _ _
      rcases exec_cases i (s.consume i.length) with ⟨-, e⟩ | ⟨_, -, e⟩ | ⟨_, -, -, e⟩ | ⟨_, -, -, e⟩ | ⟨-, e⟩ | ⟨-, e⟩ <;>
        simp [e]

/-- A faulted engine has no step (R123). -/
theorem step_of_faulted {s : State} (he : s.status.err ≠ .none) : step s = .fault .engineFaulted := by
  unfold step
  split
  · rfl
  · rfl
  · rename_i h; exact absurd h he

end Sys2Proof.Machine
end

