-- ==== Sys2Proof/Laws/Moves.lean ====
section
/-! SUPPORT. What one move can do, and finite and infinite interleavings move by move. -/

namespace Sys2Proof.Machine

/-- What a move that is enabled does: an engine step, an append, nothing, or a reset. -/
theorem Move.apply_cases {m : Move} {s t : State} (h : m.apply s = .next t) :
    (m = .engine ∧ step s = .next t) ∨
    (∃ first more, m = .append first more ∧ t = s.append (first :: more)) ∨
    (∃ ks, m = .read ks ∧ t = s) ∨
    (m = .reset ∧ t = State.reset) := by
  cases m with
  | engine => exact .inl ⟨rfl, h⟩
  | append first more => cases h; exact .inr (.inl ⟨first, more, rfl, rfl⟩)
  | read ks =>
    simp only [Move.apply] at h
    split at h <;> cases h
    exact .inr (.inr (.inl ⟨ks, rfl, rfl⟩))
  | reset => cases h; exact .inr (.inr (.inr ⟨rfl, rfl⟩))

/-- A read leaves the state, refused or not (R46). -/
@[simp] theorem outcomeState_read (s : State) (ks : List Nat) : outcomeState s ((Move.read ks).apply s) = s := by
  simp only [Move.apply]; split <;> rfl

@[simp] theorem outcomeState_append (s : State) (first : Octet) (more : List Octet) :
    outcomeState s ((Move.append first more).apply s) = s.append (first :: more) := rfl

@[simp] theorem outcomeState_reset (s : State) : outcomeState s (Move.reset.apply s) = State.reset := rfl

/-- An enabled engine move is the step. -/
theorem outcomeState_engine {s t : State} (h : step s = .next t) : outcomeState s (Move.engine.apply s) = t := by
  simp [Move.apply, h, outcomeState]

/-- An engine move that is not enabled leaves the state (R71, R123). -/
theorem outcomeState_engine_of_no_step {s : State} (h : ¬ ∃ t, step s = .next t) :
    outcomeState s (Move.engine.apply s) = s := by
  simp only [Move.apply]
  cases hs : step s with
  | next t => exact absurd ⟨t, hs⟩ h
  | fault r => rfl
  | refused r => rfl

@[simp] theorem schedule_nil (s : State) : schedule [] s = s := rfl
@[simp] theorem schedule_cons (m : Move) (ms : List Move) (s : State) :
    schedule (m :: ms) s = schedule ms (outcomeState s (m.apply s)) := rfl

/-- An interleaving made of two, one after the other. -/
theorem schedule_append (ms ns : List Move) (s : State) : schedule (ms ++ ns) s = schedule ns (schedule ms s) := by
  induction ms generalizing s with
  | nil => rfl
  | cons m ms ih => exact ih _

@[simp] theorem appended_nil : appended [] = [] := rfl
@[simp] theorem appended_cons (m : Move) (ms : List Move) : appended (m :: ms) = m.octets ++ appended ms := rfl

/-- The octets of two lists of moves, one after the other. -/
theorem appended_append (ms ns : List Move) : appended (ms ++ ns) = appended ms ++ appended ns := by
  induction ms with
  | nil => rfl
  | cons m ms ih => simp [ih]

@[simp] theorem stateAt_zero (μ : Nat → Move) (s : State) : stateAt μ s 0 = s := rfl
theorem stateAt_succ (μ : Nat → Move) (s : State) (n : Nat) :
    stateAt μ s (n + 1) = outcomeState (stateAt μ s n) ((μ n).apply (stateAt μ s n)) := rfl

/-- The first `n` moves of an infinite interleaving are a finite one. -/
theorem stateAt_eq_schedule (μ : Nat → Move) (s : State) (n : Nat) :
    stateAt μ s n = schedule ((List.range n).map μ) s := by
  induction n with
  | zero => rfl
  | succ n ih => rw [stateAt_succ, List.range_succ, List.map_append, schedule_append, ← ih]; rfl

end Sys2Proof.Machine
end

