-- ==== Sys2Proof/Laws/PerInstr.lean ====
section
/-! SUPPORT. A statement about the syntax of each command, one lemma per constructor. -/

namespace Sys2Proof.Laws.EncodeLength

/-- The encoding of a command has the length of its format (R61). -/
def Statement (i : Instr) : Prop := (encode i).length = i.length

theorem clr : Statement .clr := rfl
theorem ldacc (imm : Acc32) : Statement (.ldacc imm) := rfl
theorem sumw (d : List Octet) : Statement (.sumw d) := by
  simp [Statement, encode, Instr.length, Machine.octets16]; omega
theorem compute : Statement .compute := rfl
theorem verify : Statement .verify := rfl

end Sys2Proof.Laws.EncodeLength
end

