-- ==== Sys2Proof/Tests/Slice0.lean ====
section
/-! SUPPORT. The model's own tests. Expected values are those of spec/95_test_vectors.md (named V-… and P…) or are worked out by
hand from the rule named. The witness theorems show states and operands that meet the hypotheses of an obligation. -/

namespace Sys2Proof.Tests

open Sys2Proof Sys2Proof.Machine

/-- An engine after reset with this ACC and these unconsumed octets. -/
def engineAt (acc : Acc32) (os : List Octet) : State := { State.reset with acc := acc, stream := os }

/-- The same in the fault state of an accumulator overflow. -/
def faultedAt (acc : Acc32) (os : List Octet) : State :=
  { State.reset with acc := acc, stream := os, pos := 10, fop := 0x03,
                     status := { rv := true, vv := false, vok := false, err := .accOverflow }, result := 0x1234 }

/-- The next state of an outcome, if it is one. -/
def next? : Host.Outcome State Fault Refusal → Option State
  | .next s => some s
  | .fault _ => none
  | .refused _ => none

/-- The fault of an outcome, if it is one. -/
def fault? : Host.Outcome State Fault Refusal → Option Fault
  | .next _ => none
  | .fault r => some r
  | .refused _ => none

/-- The octets of a read or an assembly, if there are any. -/
def octets? {ε : Type} : Except ε (List Octet) → Option (List Octet)
  | .ok os => some os
  | .error _ => none

/-! ### Well-formedness: the one check, and a term it refuses -/

/-- A span of `n` equal octets is well-formed by its length alone. -/
theorem wf_replicate (n : Nat) (o : Octet) : (Instr.sumw (List.replicate n o)).wf = decide (n ≤ 65535) := by
  simp [Instr.wf, Config.maxSpan]

theorem test_wf_refuses_a_span_of_65536 : (Instr.sumw (List.replicate 65536 0x00#8)).wf = false := by
  rw [wf_replicate]; decide

theorem test_wf_takes_a_span_of_65535 : (Instr.sumw (List.replicate 65535 0x00#8)).wf = true := by
  rw [wf_replicate]; decide

/-! ### Decoding: words written out bit by bit from R61 to R64 -/

theorem test_decode_clr : decode [0b00000001#8] = .command .clr [] := by decide

theorem test_decode_ldacc : decode [0b00000010#8, 0b00010010#8, 0b00110100#8, 0b01010110#8, 0b01111000#8] =
    .command (.ldacc 0x12345678#32) [] := by decide

theorem test_decode_sumw : decode [0b00000011#8, 0b00000000#8, 0b00000011#8, 0x12#8, 0x34#8, 0x56#8, 0x04#8] =
    .command (.sumw [0x12#8, 0x34#8, 0x56#8]) [0x04#8] := by decide

theorem test_decode_compute : decode [0b00000100#8] = .command .compute [] := by decide

theorem test_decode_verify : decode [0b00000101#8] = .command .verify [] := by decide

/-- V-E8 to V-E11 (R67). -/
theorem test_decode_illegal : decode [0x00#8] = .illegal 0x00#8 ∧ decode [0x06#8, 0x01#8] = .illegal 0x06#8 ∧
    decode [0x80#8] = .illegal 0x80#8 ∧ decode [0xFF#8] = .illegal 0xFF#8 := by decide

/-- V-E4: LEN is big-endian, 0x0100 is 256. -/
theorem test_decode_sumw_len_256 (d : List Octet) (h : d.length = 256) :
    decode (0x03#8 :: 0x01#8 :: 0x00#8 :: d) = .command (.sumw d) [] := by
  simpa using decodeSumw_append 0x01#8 0x00#8 d [] h

/-- V-E12 to V-E14: holds. -/
theorem test_decode_incomplete : decode [0x02#8, 0x00#8, 0x00#8] = .incomplete ∧ decode [0x03#8, 0x00#8] = .incomplete ∧
    decode [0x03#8, 0x00#8, 0x04#8, 0xAA#8, 0xBB#8] = .incomplete := by decide

/-- spec/opcode_table.json's numbering: octet 0 is bits 7:0, octet 1 is bits 15:8. -/
theorem test_decodeTableWord : decodeTableWord 8 0x01 = some .clr ∧
    decodeTableWord 40 0x7856341202 = some (.ldacc 0x12345678#32) ∧ decodeTableWord 8 0x02 = some (.ldacc 0) ∧
    decodeTableWord 24 0x020003 = some (.sumw [0x00#8, 0x00#8]) ∧ decodeTableWord 8 0x03 = some (.sumw []) ∧
    decodeTableWord 8 0x06 = none := by decide

/-- The very next step after reset runs the placed instruction (log entry 2). -/
theorem test_withFetchWord : next? (step (State.reset.withFetchWord 40 0x7856341202)) =
    some { State.reset with acc := 0x12345678#32, pos := 5 } := by decide

/-! ### The commands, at most two tests each -/

/-- V-A12, with other registers set. -/
theorem test_clr : next? (step { engineAt 0x0001FFFF [0x01, 0x04] with result := 0x97CB, pos := 7 }) =
    some { engineAt 0 [0x04] with result := 0x97CB, pos := 8 } := by decide

/-- V-A13. -/
theorem test_ldacc : next? (step (engineAt 0 [0x02, 0x00, 0x01, 0xFF, 0xFF])) =
    some { engineAt 0x0001FFFF [] with pos := 5 } := by decide

/-- V-A4: an odd span, its last octet a high octet. -/
theorem test_sumw_odd : next? (step (engineAt 0 [0x03, 0x00, 0x03, 0x12, 0x34, 0x56])) =
    some { engineAt 0x00006834 [] with pos := 6 } := by decide

/-- V-X4's second command: ACC_OVERFLOW, and the COMPUTE behind it is left unconsumed. -/
theorem test_sumw_overflow : next? (step (engineAt 0xFFFFFFFF [0x03, 0x00, 0x02, 0x00, 0x01, 0x04])) =
    some { engineAt 0xFFFFFFFF [0x04] with
      pos := 5, fop := 0x03, status := { rv := false, vv := false, vok := false, err := .accOverflow } } := by decide

/-- V-F3: two passes of the fold. -/
theorem test_compute_two_folds : (next? (step (engineAt 0x0001FFFF [0x04]))).map (fun t => (t.acc, t.result, t.status.toOctet)) =
    some (0x0001FFFF#32, 0xFFFE#16, 0x01#8) := by decide

/-- V-F5: a zero complement becomes all-ones. -/
theorem test_compute_zero_mapped : (next? (step (engineAt 0x0000FFFF [0x04]))).map State.result = some 0xFFFF#16 := by decide

/-- V-F12. -/
theorem test_verify_holds : (next? (step (engineAt 0xFFFF0000 [0x05]))).map (fun t => t.status.toOctet) = some 0x06#8 := by decide

/-- V-F1: an all-zero sum does not verify. -/
theorem test_verify_zero : (next? (step (engineAt 0 [0x05]))).map (fun t => t.status.toOctet) = some 0x02#8 := by decide

/-- V-X1. -/
theorem test_illegal_octet : next? (step (engineAt 0 [0x06, 0x01, 0x04])) =
    some { engineAt 0 [0x01, 0x04] with
      pos := 1, fop := 0x06, status := { rv := false, vv := false, vok := false, err := .illegalOpcode } } := by decide

/-- V-X5, V-E12 and R149: the three ways to have no step. -/
theorem test_no_step : fault? (step (faultedAt 0 [0x01])) = some .engineFaulted ∧
    fault? (step (engineAt 0 [0x02, 0x00, 0x00])) = some .incompleteCommand ∧
    fault? (step State.reset) = some .idle := by decide

/-- V-X4's readback. -/
theorem test_window : { engineAt 0xFFFFFFFF [] with
    fop := 0x03, status := { rv := false, vv := false, vok := false, err := .accOverflow } }.window =
    [0xFF, 0xFF, 0xFF, 0xFF, 0x00, 0x00, 0x20, 0x03] := by decide

/-- V-R1: reset leaves the fault state. -/
theorem test_reset_after_fault : (faultedAt 0xFFFFFFFF [0x04]).hostReset.window = [0, 0, 0, 0, 0, 0, 0, 0] := by decide

/-- R107: an absent checksum is exempt, a present one is verified. -/
theorem test_host_exemption : hostVerify [] (headerSpan 12345 53 20 0) [] = none ∧
    (hostVerify [] (headerSpan 12345 53 20 0xA23B) []).isSome = true := by decide

/-- V-D3's spans: source 12345, destination 53, length 20. -/
theorem test_header_span : headerSpan 12345 53 20 0 = [0x30, 0x39, 0x00, 0x35, 0x00, 0x14, 0x00, 0x00] ∧
    pseudoHeaderSpan 0xC0A8010A 0xC0A80114 20 = [192, 168, 1, 10, 192, 168, 1, 20, 0x00, 0x11, 0x00, 0x14] := by decide

/-! ### The assembler -/

/-- P5, its comment and both number forms. -/
theorem test_asm_program : octets? (assembleText
    ['L', 'D', 'A', 'C', 'C', ' ', '0', 'x', 'F', 'F', 'F', 'F', 'F', 'F', 'F', 'F', '\n',
     's', 'u', 'm', 'w', ' ', '[', '0', ',', ' ', '0', 'x', '0', '1', ']', ' ', ';', ' ', 'x', '\n',
     'C', 'O', 'M', 'P', 'U', 'T', 'E']) =
    some [0x02, 0xFF, 0xFF, 0xFF, 0xFF, 0x03, 0x00, 0x02, 0x00, 0x01, 0x04] := by decide

/-- R69: CSUM3 with empty spans. -/
theorem test_asm_csum3 : octets? (assembleText
    ['C', 'S', 'U', 'M', '3', ' ', '[', ']', ',', '[', '7', ']', ',', '[', ']']) =
    some [0x01, 0x03, 0x00, 0x00, 0x03, 0x00, 0x01, 0x07, 0x03, 0x00, 0x00, 0x04] := by decide

/-- R68's refusals: an octet out of range, an unknown mnemonic. -/
theorem test_asm_refusals : assembleLine (.byte [256]) = .error .outOfRange ∧
    parseLine ['N', 'O', 'P'] = .error .unknownMnemonic ∧
    parseLine ['C', 'L', 'R', ' ', '1'] = .error .badSyntax := by decide

/-! ### Witnesses: the hypotheses of each obligation can be met, clause by clause -/

theorem witness_ReadIsASnapshotWithoutEffect :
    (∀ k ∈ [0, 7], k < 8) ∧ ∃ k ∈ [7, 8], 8 ≤ k := by decide

theorem witness_OperandsAssembleBigEndian :
    ([] : List Octet).length = (0x00#8).toNat * 256 + (0x00#8).toNat ∧
    (List.replicate 65535 0x00#8).length = (0xFF#8).toNat * 256 + (0xFF#8).toNat := by
  rw [List.length_replicate]; decide

theorem witness_LengthDecidesDecoding :
    (0x00#8 ≠ 0x02#8 ∧ 0x00#8 ≠ 0x03#8) ∧ (0x04#8 ≠ 0x02#8 ∧ 0x04#8 ≠ 0x03#8) ∧
    (commandLength [0x02#8, 1, 2, 3, 4] = some 5 ∧ 5 ≤ [0x02#8, 1, 2, 3, 4].length) ∧
    (commandLength [0x02#8, 1, 2, 3] = some 5 ∧ [0x02#8, 1, 2, 3].length < 5) ∧
    (commandLength [0x06#8] = some 1 ∧ 1 ≤ [0x06#8].length) := by decide

theorem witness_DecodeOfEncodeGivesTheCommand :
    (Instr.sumw (List.replicate 65535 0xFF#8)).wf = true ∧ (Instr.ldacc 0xFFFFFFFF#32).wf = true := by
  rw [wf_replicate]; decide

theorem witness_DecodedCommandHasThatEncoding :
    decode [0x03#8, 0x00#8, 0x01#8, 0xAA#8, 0x05#8] = .command (.sumw [0xAA#8]) [0x05#8] := by decide

theorem witness_StepRunsTheDecodedCommand :
    (engineAt 1 [0x05, 0x04]).status.err = .none ∧ decode (engineAt 1 [0x05, 0x04]).stream = .command .verify [0x04] := by
  decide

theorem witness_StepIsThePseudocode : pseudocodeStep (engineAt 1 [0x05]) ≠ none ∧
    pseudocodeStep (engineAt 1 [0x03, 0x00, 0x01]) = none := by decide

theorem witness_EachCommandWritesItsRow_f0 :
    (engineAt 7 [0x01]).status.err = .none ∧ (engineAt 7 [0x01]).stream = 0x01#8 :: [] ∧
    (engineAt 7 [0x04]).stream = 0x04#8 :: [] ∧ (engineAt 7 [0x05]).stream = 0x05#8 :: [] ∧
    (engineAt 7 [0x02, 1, 2, 3, 4]).stream = 0x02#8 :: 1 :: 2 :: 3 :: 4 :: [] := by decide

theorem witness_EachCommandWritesItsRow_illegal :
    (engineAt 7 [0x00]).stream = 0x00#8 :: [] ∧ ((0x00#8).toNat = 0 ∨ 6 ≤ (0x00#8).toNat) ∧
    (engineAt 7 [0x06]).stream = 0x06#8 :: [] ∧ ((0x06#8).toNat = 0 ∨ 6 ≤ (0x06#8).toNat) := by decide

/-- V-A8: the exact maximum. -/
theorem witness_EachCommandWritesItsRow_sumw :
    (engineAt 0xFFFF0000 [0x03, 0, 2, 0xFF, 0xFF]).stream = 0x03#8 :: 0x00#8 :: 0x02#8 :: ([0xFF, 0xFF] ++ []) ∧
    [0xFF#8, 0xFF#8].length = (0x00#8).toNat * 256 + (0x02#8).toNat ∧
    sumWords (engineAt 0xFFFF0000 [0x03, 0, 2, 0xFF, 0xFF]).acc.toNat [0xFF, 0xFF] ≤ 0xFFFFFFFF := by decide

/-- V-A9: one above it. The witness of `SumwOverflowTakesTheFault` too. -/
theorem witness_EachCommandWritesItsRow_overflow :
    (engineAt 0xFFFF0000 [0x03, 0, 4, 0xFF, 0xFF, 0, 1]).status.err = .none ∧
    (engineAt 0xFFFF0000 [0x03, 0, 4, 0xFF, 0xFF, 0, 1]).stream = 0x03#8 :: 0x00#8 :: 0x04#8 :: ([0xFF, 0xFF, 0, 1] ++ []) ∧
    [0xFF#8, 0xFF, 0, 1].length = (0x00#8).toNat * 256 + (0x04#8).toNat ∧
    0xFFFFFFFF < sumWords (engineAt 0xFFFF0000 [0x03, 0, 4, 0xFF, 0xFF, 0, 1]).acc.toNat [0xFF, 0xFF, 0, 1] := by decide

theorem witness_PosCountsTheConsumedOctets :
    (∃ t, step (engineAt 3 [0x04]) = .next t) ∧ Move.reset ∉ [Move.append 0x04 [0x05], .engine, .read [0]] :=
  ⟨⟨_, rfl⟩, by decide⟩

theorem witness_EngineReachesQuiescence : (engineAt 0 [0x01]).avail ≤ 1 := by decide

theorem witness_ClrClearsTheAccumulatorOnly : (engineAt 0 []).acc = 0 ∧ (faultedAt 1 [0x01]).status.err ≠ .none := by decide

theorem witness_LdaccLoadsTheAccumulatorOnly :
    (∃ t, exec (.ldacc 0xFFFFFFFF) (engineAt 0 []) = .next t) ∧ ∃ w ∈ words [0x00, 0x01], w ≠ 0 :=
  ⟨⟨_, rfl⟩, 0x0001#16, by decide, by decide⟩

theorem witness_SumwAddsTheSpansWords :
    (engineAt 0xFFFF0000 []).acc.toNat + ((words [0xFF, 0xFF]).map BitVec.toNat).sum ≤ 0xFFFFFFFF ∧
    0xFFFFFFFF < (engineAt 0xFFFFFFFF []).acc.toNat + ((words [0x00, 0x01]).map BitVec.toNat).sum ∧
    [0x00#8, 0x01#8].length ≤ 65535 ∧ [0x00#8, 0x01#8].length % 2 = 0 ∧ ∀ o ∈ [0x00#8, 0x00#8], o = 0x00#8 := by decide

theorem witness_ComputeWritesResultAndRv :
    (engineAt 0 []).acc = 0 ∧ fold (engineAt 0x0001FFFE []).acc = 0xFFFF#16 ∧
    ∃ t, exec .compute (engineAt 0 []) = .next t :=
  ⟨rfl, by decide, _, rfl⟩

theorem witness_WordsByIndex : 0 < [1, 2, (3 : Octet)].length >>> 1 ∧ [1, 2, (3 : Octet)].length % 2 = 1 := by decide

theorem witness_SpansPairIndependently : ∃ t u, (engineAt 0 []).status.err = .none ∧
    exec (.sumw [0x12, 0x34, 0x56]) (engineAt 0 []) = .next t ∧ t.status.err = .none ∧
    exec (.sumw [0x78]) t = .next u ∧ u.status.err = .none :=
  ⟨_, _, rfl, exec_sumw_of_fits (by decide), rfl, exec_sumw_of_fits (by decide), rfl⟩

theorem witness_EvenSplitSameFaultSameAccWithoutFault :
    (engineAt 5 []).status.err = .none ∧ (engineAt 5 []).stream = [] ∧ [0x12#8, 0x34#8].length % 2 = 0 ∧
    ([0x12#8, 0x34#8] ++ [0x56#8]).length ≤ 65535 := by decide

/-- The second half alone overflows. -/
theorem witness_EvenSplitLeavesTheSameAccAlways :
    (engineAt 0xFFFF0000 []).status.err = .none ∧ (engineAt 0xFFFF0000 []).stream = [] ∧
    [0xFF#8, 0xFF#8].length % 2 = 0 ∧ ([0xFF#8, 0xFF#8] ++ [0x00#8, 0x01#8]).length ≤ 65535 := by decide

theorem witness_SumwOrderSameOverflowSameAccWithoutFault :
    (engineAt 0 []).status.err = .none ∧ (engineAt 0 []).stream = [] ∧
    (∀ d ∈ [[0x12#8, 0x34#8], [0x56#8]], d.length ≤ 65535) ∧
    [[0x12#8, 0x34#8], [0x56#8]].Perm [[0x56#8], [0x12#8, 0x34#8]] ∧
    (engineAt 0 []).acc.toNat + ([[0x12#8, 0x34#8], [0x56#8]].map fun d => ((words d).map BitVec.toNat).sum).sum ≤ 0xFFFFFFFF :=
  ⟨rfl, rfl, by decide, .swap _ _ _, by decide⟩

/-- The same where the runs overflow, each at another command: the sum is 0x100000000. -/
theorem witness_SumwOrderSameOverflowSameAccWithoutFault_overflow :
    (engineAt 0xFFFF0000 []).status.err = .none ∧ (engineAt 0xFFFF0000 []).stream = [] ∧
    (∀ d ∈ [[0xFF#8, 0xFF#8], [0x00#8, 0x01#8]], d.length ≤ 65535) ∧
    [[0xFF#8, 0xFF#8], [0x00#8, 0x01#8]].Perm [[0x00#8, 0x01#8], [0xFF#8, 0xFF#8]] ∧
    0xFFFFFFFF < (engineAt 0xFFFF0000 []).acc.toNat +
      ([[0xFF#8, 0xFF#8], [0x00#8, 0x01#8]].map fun d => ((words d).map BitVec.toNat).sum).sum ∧
    (runEngine ((engineAt 0xFFFF0000 []).append
      (encodeAll [.sumw [0xFF#8, 0xFF#8], .sumw [0x00#8, 0x01#8]]))).status.err = .accOverflow :=
  ⟨rfl, rfl, by decide, .swap _ _ _, by decide, by decide⟩

theorem witness_OverflowBound : (engineAt 0 []).acc = 0 ∧
    ([[0x12#8, 0x34#8], [0x56#8]].map (fun d => (words d).length)).sum ≤ 65537 ∧
    (List.replicate 12 0xFF#8).length = 12 ∧ (List.replicate 8 0xFF#8).length = 8 ∧ (List.replicate 65527 0xFF#8).length ≤ 65527 := by
  simp only [List.length_replicate]; decide

theorem witness_FoldProperties : 0xFFFF < 0x10000 ∧ 0x1FFFE ≤ 0x1FFFE ∧ (0x00010000#32 : Acc32) ≠ 0 ∧
    FoldRuns (0x0000FFFF#32).toNat 0 0xFFFF :=
  ⟨by decide, by decide, by decide, .done _ (by decide)⟩

theorem witness_FinishComplementsAndMapsZero : 0xFFFF - (0x0000#16).toNat ≠ 0 ∧ 0xFFFF - (0xFFFF#16).toNat = 0 := by decide

/-- Both edges of the illegal range. -/
theorem witness_FaultsExactlyAsTabled_illegal :
    (∃ t, step (engineAt 0 [0x00]) = .next t ∧ t.status.err = .illegalOpcode) ∧ illegalOctet 0x00 = true ∧
    (∃ t, step (engineAt 0 [0x06, 0x01]) = .next t) ∧ illegalOctet 0x06 = true ∧
    (∃ t, step (engineAt 0 [0x05]) = .next t) ∧ illegalOctet 0x05 = false :=
  ⟨⟨_, rfl, rfl⟩, by decide, ⟨_, rfl⟩, by decide, ⟨_, rfl⟩, by decide⟩

/-- A SUMW one above the maximum, and V-A8's at it. -/
theorem witness_FaultsExactlyAsTabled_overflow :
    (∃ t, step (engineAt 0xFFFF0000 [0x03, 0, 4, 0xFF, 0xFF, 0, 1]) = .next t ∧ t.status.err = .accOverflow) ∧
    (engineAt 0xFFFF0000 [0x03, 0, 4, 0xFF, 0xFF, 0, 1]).stream = 0x03#8 :: 0x00#8 :: 0x04#8 :: ([0xFF, 0xFF, 0, 1] ++ []) ∧
    0xFFFFFFFF < sumWords (engineAt 0xFFFF0000 [0x03, 0, 4, 0xFF, 0xFF, 0, 1]).acc.toNat [0xFF, 0xFF, 0, 1] ∧
    ∃ t, step (engineAt 0xFFFF0000 [0x03, 0, 2, 0xFF, 0xFF]) = .next t ∧ t.status.err = .none :=
  ⟨⟨_, rfl, rfl⟩, rfl, by decide, ⟨_, rfl, rfl⟩⟩

theorem witness_FaultStateLastsUntilReset : (faultedAt 1 [0x01]).status.err ≠ .none ∧
    Move.reset ∉ [Move.engine, .append 0x01 [], .read [6, 7]] := by decide

/-- A state that is not reset's: a COMPUTE and a failing VERIFY have completed. -/
theorem witness_EveryStepKeepsTheInvariant :
    { engineAt 5 [0x03, 0, 0] with
      result := 0xFFFA, pos := 2, status := { rv := true, vv := true, vok := false, err := .none } }.Inv ∧
    ∃ t, step { engineAt 5 [0x03, 0, 0] with
      result := 0xFFFA, pos := 2, status := { rv := true, vv := true, vok := false, err := .none } } = .next t :=
  ⟨by simp [State.Inv, engineAt, State.reset, fopAgrees], _, rfl⟩

theorem witness_EveryScheduleKeepsTheInvariant : (faultedAt 1 [0x01]).Inv := by
  simp [State.Inv, faultedAt, fopAgrees]

theorem witness_ResultsChangeOnlyByTheirCommand :
    (∃ t, step (engineAt 5 [0x04]) = .next t ∧ t.result ≠ (engineAt 5 [0x04]).result) ∧
    ∃ t, step (engineAt 5 [0x05]) = .next t ∧ t.status.vv ≠ (engineAt 5 [0x05]).status.vv :=
  ⟨⟨_, rfl, by decide⟩, ⟨_, rfl, by decide⟩⟩

/-- A VERIFY that holds, in two engines with all other registers different. -/
theorem witness_NoCommandReadsAFlag : ∃ t, (engineAt 0xFFFF [0x05]).status.err = .none ∧
    ({ engineAt 0xFFFF [0x05] with
      result := 9, pos := 3, status := { rv := true, vv := true, vok := true, err := .none } } : State).status.err = .none ∧
    step (engineAt 0xFFFF [0x05]) = .next t ∧ t.status.vok = true :=
  ⟨_, rfl, rfl, rfl, by decide⟩

theorem witness_SameCommandsSameResults :
    (engineAt 5 []).status.err = .none ∧ (engineAt 5 []).stream = [] ∧
    (∀ i ∈ [Instr.sumw [0x01], .compute, .verify], i.wf = true) ∧ Instr.compute ∈ [Instr.sumw [0x01], .compute, .verify] ∧
    (runEngine ((engineAt 5 []).append (encodeAll [Instr.sumw [0x01], .compute, .verify]))).status.err = .none := by decide

theorem witness_StreamIsAppendOnly : (∃ t, step (engineAt 5 [0x04]) = .next t) ∧
    (∃ t, Move.engine.apply (engineAt 5 [0x04]) = .next t) ∧ Move.engine ≠ .reset ∧
    (∃ t, (Move.append 0x04 [0x05]).apply (engineAt 5 [0x04]) = .next t) ∧ Move.append 0x04 [0x05] ≠ .reset ∧
    ∃ t, (Move.read [0, 7]).apply (engineAt 5 [0x04]) = .next t :=
  ⟨⟨_, rfl⟩, ⟨_, rfl⟩, by decide, ⟨_, rfl⟩, by decide, ⟨_, rfl⟩⟩

theorem witness_ReadsShowAGrowingPrefix :
    Move.reset ∉ [Move.append 0x01 [0x04], .engine, .engine] ∧ Move.reset ∉ [Move.append 0x05 [], .engine] ∧
    (schedule [Move.append 0x01 [0x04], .engine, .engine] State.reset).quiescent = true := by decide

theorem witness_InstancesShareNothing :
    ∃ q, platformMove 0 .engine [engineAt 5 [0x04], State.reset] = .next q := ⟨_, rfl⟩

/-- A datagram with the pseudo-header's 12 octets. -/
theorem witness_ComputedChecksumVerifies :
    (pseudoHeaderSpan 0x0A000001 0x0A000002 9).length = 12 ∧ (headerSpan 8080 514 9 0).length = 8 ∧
    (headerSpan 8080 514 9 0)[6]? = some 0x00#8 ∧ (headerSpan 8080 514 9 0)[7]? = some 0x00#8 ∧ [0xDE#8].length ≤ 65527 ∧
    (engineAt 7 []).status.err = .none ∧ (engineAt 7 []).stream = [] := by decide

theorem witness_PseudoCommandsRealiseTheSource :
    sourceSum [0x12] [0x34, 0x56] [] ≤ 0xFFFFFFFF ∧ sumWords (0xFFFF0000#32).toNat [0xFF, 0xFF] ≤ 0xFFFFFFFF ∧
    [0x12#8].length ≤ 65535 := by decide

theorem witness_ThreeSpanPaddingAgrees :
    (pseudoHeaderSpan 0 0 0).length = 12 ∧ (headerSpan 0 0 8 0).length = 8 := by decide

theorem witness_AbsentChecksumConvention : isAbsent 0x0000 = true ∧ isAbsent 0x0001 = false := by decide

theorem witness_ChecksumSerialization : (headerSpan 1 2 3 4).length = 8 := by decide

theorem witness_AssemblerAgreesWithTheEncoding :
    (Instr.sumw [0x12]).wf = true ∧ 0xFFFFFFFF < 0x100000000 ∧ 65535 < (List.replicate 65536 0).length ∧
    ∃ b ∈ [0, 256], 0xFF < b := by
  rw [List.length_replicate]; decide

/-- Where two refusals meet: a list too long, all of it out of range. -/
theorem witness_AssemblerAgreesWithTheEncoding_both :
    65535 < (List.replicate 65536 256).length ∧ ∃ b ∈ List.replicate 65536 256, 0xFF < b := by
  rw [List.length_replicate]
  exact ⟨by decide, 256, List.mem_replicate.2 ⟨by decide, rfl⟩, by decide⟩

theorem witness_PseudoCommandExpansions : ([] : List Octet).length ≤ 65535 ∧ [0x12#8].length ≤ 65535 := by decide

theorem witness_StopsAreNamedByTheirCause : (faultedAt 1 [0x01]).status.err ≠ .none ∧
    State.reset.endsSuccessfully = true ∧ State.reset.quiescent = true ∧
    (engineAt 1 [0x03, 0x00]).status.err = .none ∧ (engineAt 1 [0x03, 0x00]).stream ≠ [] ∧
    startsComplete (engineAt 1 [0x03, 0x00]).stream = false := by decide

/-- A step is enabled, the host appends first, then the engine alone moves. -/
theorem witness_FairRunsTakeEveryEnabledStep :
    Fair (thenEngine [.append 0x05 []]) (engineAt 5 [0x04]) ∧ (∀ n, thenEngine [.append 0x05 []] n ≠ .reset) ∧
    (∃ t, step (stateAt (thenEngine [.append 0x05 []]) (engineAt 5 [0x04]) 0) = .next t) ∧
    ∀ n, 1 ≤ n → (thenEngine [.append 0x05 []] n).octets = [] := by
  have h : ∀ n, thenEngine [.append 0x05 []] (n + 1) = .engine := fun _ => rfl
  refine ⟨fun n _ => ⟨n + 1, Nat.le_succ n, .inl (h n)⟩, fun n => ?_, ⟨_, rfl⟩, fun n hn => ?_⟩
  · cases n with
    | zero => exact nofun
    | succ n => rw [h]; exact nofun
  · cases n with
    | zero => exact absurd hn (by decide)
    | succ n => rw [h]; rfl

theorem witness_EveryScheduleExtendsFairly : [Move.append 0x01 [], .reset][1]? = some .reset := by decide

end Sys2Proof.Tests
end

section
/-! PROOFS. Facts about the decoder: illegal octets, and a command's length read off its first octets. -/

namespace Sys2Proof

open Machine

/-- An illegal octet is no opcode (R62, R67). -/
theorem illegal_ne_opcode {op : Octet} (h : op.toNat = 0 ∨ 6 ≤ op.toNat) {k : Nat} (h₁ : 1 ≤ k) (h₅ : k ≤ 5) :
    op ≠ BitVec.ofNat 8 k := by
  rintro rfl
  rw [BitVec.toNat_ofNat] at h
  omega

/-- An octet outside 0x01 to 0x05 decodes as illegal (R67). -/
theorem decode_illegal {op : Octet} (r : List Octet) (h : op.toNat = 0 ∨ 6 ≤ op.toNat) :
    decode (op :: r) = .illegal op := by
  simp [decode, opClr, opLdacc, opSumw, opCompute, opVerify, illegal_ne_opcode h]

/-- A decoded illegal octet is the stream's first and is outside 0x01 to 0x05. -/
theorem decode_eq_illegal {os : List Octet} {op : Octet} (h : decode os = .illegal op) :
    ∃ r, os = op :: r ∧ (op.toNat = 0 ∨ 6 ≤ op.toNat) := by
  rcases decode_cases os with ⟨-, e⟩ | ⟨_, -, e⟩ | ⟨_, _, _, _, _, -, e⟩ | ⟨_, -, -, e⟩ | ⟨_, _, _, _, -, -, e⟩ |
    ⟨_, -, -, e⟩ | ⟨_, _, _, -, -, e⟩ | ⟨_, -, e⟩ | ⟨_, -, e⟩ | ⟨op, r, hs, hop, e⟩ <;> rw [e] at h <;> cases h
  exact ⟨r, hs, hop⟩

/-- A decoded command is as long as its first octets say (R66). -/
theorem commandLength_of_command {os rest : List Octet} {i : Instr} (h : decode os = .command i rest) :
    commandLength os = some i.length := by
  rcases decode_cases os with ⟨-, e⟩ | ⟨_, rfl, e⟩ | ⟨_, _, _, _, _, rfl, e⟩ | ⟨_, -, -, e⟩ |
    ⟨o₁, o₂, d, r, rfl, hd, e⟩ | ⟨_, -, -, e⟩ | ⟨_, _, _, -, -, e⟩ | ⟨_, rfl, e⟩ | ⟨_, rfl, e⟩ | ⟨_, _, -, -, e⟩ <;>
    rw [e] at h <;> cases h
  · rfl
  · rfl
  · rw [Instr.length, hd]; rfl
  · rfl
  · rfl

/-- An illegal opcode octet is a whole command by itself (R62, R66). -/
theorem commandLength_of_illegal {op : Octet} (r : List Octet) (h : op.toNat = 0 ∨ 6 ≤ op.toNat) :
    commandLength (op :: r) = some 1 := by
  simp [commandLength, opLdacc, opSumw, illegal_ne_opcode h]

/-- Every command has at least its opcode octet (R61). -/
theorem Instr.one_le_length (i : Instr) : 1 ≤ i.length := by
  cases i <;> simp [Instr.length]; omega

/-- The four octets of an immediate as the number they write out (R64). -/
theorem be32_eq_ofNat (o₁ o₂ o₃ o₄ : Octet) :
    be32 o₁ o₂ o₃ o₄ =
      BitVec.ofNat 32 (((o₁.toNat * 256 + o₂.toNat) * 256 + o₃.toNat) * 256 + o₄.toNat) := by
  rw [← be32_toNat, BitVec.ofNat_toNat, BitVec.setWidth_eq]

end Sys2Proof
end

section
/-! PROOFS. What one engine step does, one row of R33's table at a time. -/

namespace Sys2Proof.Machine

/-- One row of R33's table: the octets at the front of `s`'s stream and the state they lead to. -/
inductive StepRow (s : State) : State → Prop
  /-- CLR (R80). -/
  | clr {r : List Octet} (h : s.stream = 0x01#8 :: r) : StepRow s ((s.consume 1).setAcc 0)
  /-- LDACC (R81). -/
  | ldacc {o₁ o₂ o₃ o₄ : Octet} {r : List Octet} (h : s.stream = 0x02#8 :: o₁ :: o₂ :: o₃ :: o₄ :: r) :
      StepRow s ((s.consume 5).setAcc (be32 o₁ o₂ o₃ o₄))
  /-- SUMW whose exact sum fits 32 bits (R82). -/
  | sumwFits {o₁ o₂ : Octet} {d r : List Octet} (h : s.stream = 0x03#8 :: o₁ :: o₂ :: (d ++ r))
      (hd : d.length = (be16 o₁ o₂).toNat) (hf : sumWords s.acc.toNat d ≤ 0xFFFFFFFF) :
      StepRow s ((s.consume (3 + d.length)).setAcc (BitVec.ofNat 32 (sumWords s.acc.toNat d)))
  /-- SUMW whose exact sum does not (R84). -/
  | sumwOverflows {o₁ o₂ : Octet} {d r : List Octet} (h : s.stream = 0x03#8 :: o₁ :: o₂ :: (d ++ r))
      (hd : d.length = (be16 o₁ o₂).toNat) (ho : 0xFFFFFFFF < sumWords s.acc.toNat d) :
      StepRow s ((s.consume (3 + d.length)).enterFault .accOverflow 0x03#8)
  /-- COMPUTE (R103). -/
  | compute {r : List Octet} (h : s.stream = 0x04#8 :: r) :
      StepRow s (((s.consume 1).setResult (finish (fold s.acc))).mapStatus Status.setRv)
  /-- VERIFY (R104). -/
  | verify {r : List Octet} (h : s.stream = 0x05#8 :: r) :
      StepRow s ((s.consume 1).mapStatus (Status.setVerdict (verdict s.acc)))
  /-- An illegal opcode octet (R67, R121). -/
  | illegal {op : Octet} {r : List Octet} (h : s.stream = op :: r) (hop : op.toNat = 0 ∨ 6 ≤ op.toNat) :
      StepRow s (s.takeIllegal op)

/-- Every row is a step of an engine without a fault. -/
theorem StepRow.step_eq {s t : State} (he : s.status.err = .none) (row : StepRow s t) : step s = .next t := by
  rw [step_of_none he]
  cases row with
  | clr h => rw [h]; rfl
  | ldacc h => rw [h]; rfl
  | sumwFits h hd hf => rw [h, decode_sumw, decodeSumw_append _ _ _ _ hd]; exact exec_sumw_of_fits hf
  | sumwOverflows h hd ho => rw [h, decode_sumw, decodeSumw_append _ _ _ _ hd]; exact exec_sumw_of_overflows ho
  | compute h => rw [h]; rfl
  | verify h => rw [h]; rfl
  | illegal h hop => rw [h, decode_illegal _ hop]

/-- A decoded command that `exec` completes is a row. -/
theorem stepRow_of_exec {s t : State} {i : Instr} {rest : List Octet} (hd : decode s.stream = .command i rest)
    (h : exec i (s.consume i.length) = .next t) : StepRow s t := by
  rcases decode_cases s.stream with ⟨-, e⟩ | ⟨r, hs, e⟩ | ⟨o₁, o₂, o₃, o₄, r, hs, e⟩ | ⟨r, -, -, e⟩ |
    ⟨o₁, o₂, d, r, hs, hl, e⟩ | ⟨r, -, -, e⟩ | ⟨o₁, o₂, r, -, -, e⟩ | ⟨r, hs, e⟩ | ⟨r, hs, e⟩ |
    ⟨op, r, -, -, e⟩ <;> rw [e] at hd <;> cases hd
  · cases h; exact .clr hs
  · cases h; exact .ldacc hs
  · rcases Nat.lt_or_ge 0xFFFFFFFF (sumWords s.acc.toNat d) with ho | hf
    · cases h.symm.trans (exec_sumw_of_overflows ho); exact .sumwOverflows hs hl ho
    · cases h.symm.trans (exec_sumw_of_fits hf); exact .sumwFits hs hl hf
  · cases h; exact .compute hs
  · cases h; exact .verify hs

/-- R71 with R33: the steps are exactly the rows, taken without a fault. -/
theorem step_eq_next_iff {s t : State} : step s = .next t ↔ s.status.err = .none ∧ StepRow s t := by
  refine ⟨fun h => ?_, fun ⟨he, row⟩ => row.step_eq he⟩
  obtain ⟨he, ⟨op, hd, rfl⟩ | ⟨i, rest, hd, hx⟩⟩ := step_cases h
  · obtain ⟨r, hs, hop⟩ := decode_eq_illegal hd
    exact ⟨he, .illegal hs hop⟩
  · exact ⟨he, stepRow_of_exec hd hx⟩

/-- Consuming exactly the octets `os` at the front leaves the rest. -/
theorem State.consume_of_stream {s : State} (os : List Octet) {rest : List Octet} (h : s.stream = os ++ rest) :
    s.consume os.length = { s with pos := s.pos + os.length, stream := rest } := by
  simp [State.consume, h]

/-- Consuming a command of one octet. -/
theorem State.consume_one {s : State} {op : Octet} {rest : List Octet} (h : s.stream = op :: rest) :
    s.consume 1 = { s with pos := s.pos + 1, stream := rest } :=
  State.consume_of_stream [op] h

/-- Consuming a whole LDACC (R64). -/
theorem State.consume_ldacc {s : State} {o₁ o₂ o₃ o₄ : Octet} {rest : List Octet}
    (h : s.stream = 0x02#8 :: o₁ :: o₂ :: o₃ :: o₄ :: rest) :
    s.consume 5 = { s with pos := s.pos + 5, stream := rest } :=
  State.consume_of_stream [0x02#8, o₁, o₂, o₃, o₄] h

/-- Consuming a whole SUMW leaves the octets behind its span (R63). -/
theorem State.consume_sumw {s : State} {o₁ o₂ : Octet} {d rest : List Octet}
    (h : s.stream = 0x03#8 :: o₁ :: o₂ :: (d ++ rest)) :
    s.consume (3 + d.length) = { s with pos := s.pos + (3 + d.length), stream := rest } := by
  have hc := State.consume_of_stream (0x03#8 :: o₁ :: o₂ :: d) (rest := rest) h
  rwa [show (0x03#8 :: o₁ :: o₂ :: d).length = 3 + d.length by simp; omega] at hc

/-- Settles O13: each clause is a row of `StepRow`, its updates of the state written out. -/
theorem eachCommandWritesItsRow : Obligations.EachCommandWritesItsRow := by
  intro s rest he
  refine ⟨fun h => ?clr, fun o₁ o₂ o₃ o₄ h => ?ldacc, fun o₁ o₂ d h hl hf => ?fits, fun h => ?compute,
    fun h => ?verify, fun op h hop => ?illegal, fun o₁ o₂ d h hl ho => ?overflows⟩
  case clr =>
    rw [StepRow.step_eq he (.clr h), State.consume_one h]; rfl
  case ldacc =>
    rw [StepRow.step_eq he (.ldacc h), State.consume_ldacc h, be32_eq_ofNat]; rfl
  case fits =>
    rw [StepRow.step_eq he (.sumwFits h (hl.trans (be16_toNat o₁ o₂).symm) hf), State.consume_sumw h]; rfl
  case compute =>
    rw [StepRow.step_eq he (.compute h), State.consume_one h]; rfl
  case verify =>
    rw [StepRow.step_eq he (.verify h), State.consume_one h, verdict_eq]; rfl
  case illegal =>
    rw [StepRow.step_eq he (.illegal h hop), State.takeIllegal, State.consume_one h]; rfl
  case overflows =>
    rw [StepRow.step_eq he (.sumwOverflows h (hl.trans (be16_toNat o₁ o₂).symm) ho), State.consume_sumw h]; rfl

end Sys2Proof.Machine
end

section
/-! PROOFS. POS and the unconsumed octets (R29). -/

namespace Sys2Proof.Machine

/-- A step consumes the command at the front: POS counts its octets and the stream loses them (R29, R71). -/
theorem step_consumes {s t : State} (h : step s = .next t) :
    ∃ n, commandLength s.stream = some n ∧ 1 ≤ n ∧ n ≤ s.stream.length ∧
      t.pos = s.pos + n ∧ t.stream = s.stream.drop n := by
  obtain ⟨-, ⟨op, hd, rfl⟩ | ⟨i, rest, hd, hx⟩⟩ := step_cases h
  · obtain ⟨r, hs, hop⟩ := decode_eq_illegal hd
    exact ⟨1, hs ▸ commandLength_of_illegal r hop, Nat.le_refl 1, by simp [hs], rfl, rfl⟩
  · obtain ⟨hpos, hstream⟩ := exec_pos_stream hx
    exact ⟨i.length, commandLength_of_command hd, Instr.one_le_length i, (decode_command_rest hd).1, hpos, hstream⟩

/-- A step moves octets from the unconsumed to the consumed ones, and their number stays. -/
theorem step_pos_add_avail {s t : State} (h : step s = .next t) : t.pos + t.avail = s.pos + s.avail := by
  obtain ⟨n, -, -, hn, hpos, hstream⟩ := step_consumes h
  simp only [State.avail, hpos, hstream, List.length_drop]
  omega

/-- Any move but a reset adds to the octets consumed and unconsumed what it appends, enabled or not. -/
theorem outcomeState_pos_add_avail (s : State) {m : Move} (hm : m ≠ .reset) :
    (outcomeState s (m.apply s)).pos + (outcomeState s (m.apply s)).avail =
      s.pos + s.avail + m.octets.length := by
  cases m with
  | engine =>
    by_cases h : ∃ t, step s = .next t
    · obtain ⟨t, h⟩ := h
      rw [outcomeState_engine h]; exact step_pos_add_avail h
    · rw [outcomeState_engine_of_no_step h]; rfl
  | append first more => simp [State.avail, Move.octets, Nat.add_assoc]
  | read ks => rw [outcomeState_read]; rfl
  | reset => exact absurd rfl hm

/-- The same for a whole interleaving without a reset. -/
theorem schedule_pos_add_avail {ms : List Move} (h : .reset ∉ ms) (s : State) :
    (schedule ms s).pos + (schedule ms s).avail = s.pos + s.avail + (appended ms).length := by
  induction ms generalizing s with
  | nil => rfl
  | cons m ms ih =>
    obtain ⟨hm, hms⟩ := List.ne_and_not_mem_of_not_mem_cons h
    rw [schedule_cons, ih hms, outcomeState_pos_add_avail s hm.symm, appended_cons, List.length_append, Nat.add_assoc]

/-- A read depends on the window alone. -/
theorem State.readback_congr {s t : State} (h : s.window = t.window) (k : Nat) : s.readback k = t.readback k := by
  simp only [State.readback, h]

/-- Settles O14: a step consumes the front command, so octets are conserved by every move, and the window shows no
POS. -/
theorem posCountsTheConsumedOctets : Obligations.PosCountsTheConsumedOctets :=
  ⟨fun _ _ h => step_consumes h,
   fun _ h => (schedule_pos_add_avail h State.reset).trans (Nat.zero_add _),
   fun _ _ k => State.readback_congr (State.window_of_registers rfl rfl rfl rfl) k⟩

end Sys2Proof.Machine
end

section
/-! PROOFS. The machine's invariant: which updates keep it, then every step and every interleaving. -/

namespace Sys2Proof.Machine

variable {s : State}

/-- POS only grows in a step, so its bounds stay. -/
theorem State.Inv.consume (h : s.Inv) (n : Nat) : (s.consume n).Inv := by
  obtain ⟨hfop, hrv, hvok, hill, hovf⟩ := h
  exact ⟨hfop, hrv, hvok, fun e => Nat.le_add_right_of_le (hill e), fun e => Nat.le_add_right_of_le (hovf e)⟩

/-- The invariant does not speak of ACC. -/
theorem State.Inv.setAcc (h : s.Inv) (v : Acc32) : (s.setAcc v).Inv := h

/-- The invariant does not speak of the stream. -/
theorem State.Inv.append (h : s.Inv) (os : List Octet) : (s.append os).Inv := h

/-- COMPUTE sets RV with a RESULT that is never 0 (R24, R102). -/
theorem State.Inv.compute (h : s.Inv) (f : Word) : ((s.setResult (finish f)).mapStatus Status.setRv).Inv := by
  obtain ⟨hfop, -, hrest⟩ := h
  exact ⟨hfop, iff_of_true rfl (finish_ne_zero f), hrest⟩

/-- VERIFY sets VV with whatever verdict (R25). -/
theorem State.Inv.verify (h : s.Inv) (b : Bool) : (s.mapStatus (Status.setVerdict b)).Inv := by
  obtain ⟨hfop, hrv, -, hpos⟩ := h
  exact ⟨hfop, hrv, nofun, hpos⟩

/-- A fault taken with the octet of its code, once its command is consumed (R121, R122). -/
theorem State.Inv.enterFault (h : s.Inv) {code : ErrCode} {op : Octet} (hop : fopAgrees code op = true)
    (hill : code = .illegalOpcode → 1 ≤ s.pos) (hovf : code = .accOverflow → 3 ≤ s.pos) :
    (s.enterFault code op).Inv := by
  obtain ⟨-, hrv, hvok, -, -⟩ := h
  exact ⟨hop, hrv, hvok, hill, hovf⟩

/-- Settles O36: each row of a step is a consumption, which keeps the invariant, and one more update that does. -/
theorem everyStepKeepsTheInvariant : Obligations.EveryStepKeepsTheInvariant := by
  intro s t hs h
  rw [step_eq_next_iff] at h
  obtain ⟨-, row⟩ := h
  cases row with
  | clr => exact (hs.consume 1).setAcc 0
  | ldacc => exact (hs.consume 5).setAcc _
  | sumwFits => exact (hs.consume _).setAcc _
  | @sumwOverflows _ _ d =>
    have hpos : 3 ≤ (s.consume (3 + d.length)).pos := by rw [State.consume_pos]; omega
    exact (hs.consume _).enterFault rfl nofun fun _ => hpos
  | compute => exact (hs.consume 1).compute _
  | verify => exact (hs.consume 1).verify _
  | illegal _ hop =>
    exact (hs.consume 1).enterFault (decide_eq_true hop) (fun _ => Nat.le_add_left 1 s.pos) nofun

/-- Settles O37: every clause at the reset values (R32). -/
theorem resetHasTheInvariant : Obligations.ResetHasTheInvariant :=
  ⟨rfl, by decide, fun _ => rfl, nofun, nofun⟩

/-- A move keeps the invariant, enabled or not. -/
theorem State.Inv.outcomeState (h : s.Inv) (m : Move) : (outcomeState s (m.apply s)).Inv := by
  cases ha : m.apply s with
  | next t =>
    obtain ⟨-, hstep⟩ | ⟨first, more, -, rfl⟩ | ⟨-, -, rfl⟩ | ⟨-, rfl⟩ := Move.apply_cases ha
    · exact everyStepKeepsTheInvariant s t h hstep
    · exact h.append _
    · exact h
    · exact resetHasTheInvariant
  | fault => exact h
  | refused => exact h

/-- Settles O38, by induction on the list of moves. -/
theorem everyScheduleKeepsTheInvariant : Obligations.EveryScheduleKeepsTheInvariant := by
  intro s ms h
  induction ms generalizing s with
  | nil => exact h
  | cons m ms ih => exact ih _ (h.outcomeState m)

end Sys2Proof.Machine
end

section
/-! PROOFS. Which command writes the results (R24, R25), and that no command reads a flag (R31). -/

namespace Sys2Proof.Machine

/-- What a step does to RESULT, RV, VV and VOK: COMPUTE writes the first two, VERIFY the others, all else leaves
the four. -/
theorem step_results {s t : State} (h : step s = .next t) :
    (s.stream.head? = some 0x04#8 ∧ t.result = finish (fold s.acc) ∧ t.status.rv = true ∧
      t.status.vv = s.status.vv ∧ t.status.vok = s.status.vok) ∨
    (s.stream.head? = some 0x05#8 ∧ t.result = s.result ∧ t.status.rv = s.status.rv ∧
      t.status.vv = true ∧ t.status.vok = verdict s.acc) ∨
    (s.stream.head? ≠ some 0x04#8 ∧ s.stream.head? ≠ some 0x05#8 ∧ t.result = s.result ∧
      t.status.rv = s.status.rv ∧ t.status.vv = s.status.vv ∧ t.status.vok = s.status.vok) := by
  rw [step_eq_next_iff] at h
  obtain ⟨-, row⟩ := h
  cases row with
  | clr h => exact .inr (.inr ⟨by simp [h], by simp [h], rfl, rfl, rfl, rfl⟩)
  | ldacc h => exact .inr (.inr ⟨by simp [h], by simp [h], rfl, rfl, rfl, rfl⟩)
  | sumwFits h => exact .inr (.inr ⟨by simp [h], by simp [h], rfl, rfl, rfl, rfl⟩)
  | sumwOverflows h => exact .inr (.inr ⟨by simp [h], by simp [h], rfl, rfl, rfl, rfl⟩)
  | compute h => exact .inl ⟨by simp [h], rfl, rfl, rfl, rfl⟩
  | verify h => exact .inr (.inl ⟨by simp [h], rfl, rfl, rfl, rfl⟩)
  | illegal h hop =>
    have h₄ := illegal_ne_opcode hop (k := 4) (by decide) (by decide)
    have h₅ := illegal_ne_opcode hop (k := 5) (by decide) (by decide)
    exact .inr (.inr ⟨by simpa [h] using h₄, by simpa [h] using h₅, rfl, rfl, rfl, rfl⟩)

/-- Settles O39: the three cases of `step_results`. -/
theorem resultsChangeOnlyByTheirCommand : Obligations.ResultsChangeOnlyByTheirCommand := by
  intro s t h
  obtain ⟨hop, -, hrv, hvv, hvok⟩ | ⟨hop, hres, hrv, hvv, hvok⟩ | ⟨h₄, h₅, hres, hrv, hvv, hvok⟩ := step_results h
  · simp [hop, hrv, hvv, hvok]
  · simp [hop, hres, hrv, hvv, hvok, verdict_eq]
  · simp [h₄, h₅, hres, hrv, hvv, hvok]

/-- Settles O40: the second engine takes the same row, whose conditions and written values are of ACC and the stream
alone. -/
theorem noCommandReadsAFlag : Obligations.NoCommandReadsAFlag := by
  intro s s' t he he' ha hs h
  rw [step_eq_next_iff] at h
  obtain ⟨-, row⟩ := h
  have same {u : State} (row' : StepRow s' u) : step s' = .next u := row'.step_eq he'
  cases row with
  | clr h => exact ⟨_, same (.clr (hs ▸ h)), by simp [he, he', hs]⟩
  | ldacc h => exact ⟨_, same (.ldacc (hs ▸ h)), by simp [he, he', hs]⟩
  | sumwFits h hd hf => exact ⟨_, same (.sumwFits (hs ▸ h) hd (ha ▸ hf)), by simp [he, he', ha, hs]⟩
  | sumwOverflows h hd ho => exact ⟨_, same (.sumwOverflows (hs ▸ h) hd (ha ▸ ho)), by simp [ha, hs]⟩
  | compute h => exact ⟨_, same (.compute (hs ▸ h)), by simp [he, he', ha, hs]⟩
  | verify h => exact ⟨_, same (.verify (hs ▸ h)), by simp [he, he', ha, hs]⟩
  | illegal h hop => exact ⟨_, same (.illegal (hs ▸ h) hop), by simp [State.takeIllegal, ha, hs]⟩

end Sys2Proof.Machine
end

section
/-! PROOFS. Reset (R32, R140) and `STATUS` as the host reads it (R23, R26). -/

namespace Sys2Proof.Machine

/-- Settles O1: the reset move answers `State.reset`, whose fields are R32's values. -/
theorem resetGivesTheStatedValues : Obligations.ResetGivesTheStatedValues := fun _ =>
  ⟨State.reset, rfl, rfl, rfl, rfl, rfl, rfl, rfl, rfl, rfl, rfl, rfl, rfl⟩

/-- Bits 5:4 of `STATUS` are the code of ERR (R23, R26). -/
theorem Status.toOctet_err (st : Status) : st.toOctet.extractLsb' 4 2 = st.err.bits := by
  obtain ⟨rv, vv, vok, err⟩ := st
  cases err <;> revert rv vv vok <;> decide

/-- The flags and the reserved bits of `STATUS` (R23). -/
theorem Status.toOctet_flags (st : Status) :
    st.toOctet.getLsbD 0 = st.rv ∧ st.toOctet.getLsbD 1 = st.vv ∧ st.toOctet.getLsbD 2 = st.vok ∧
    st.toOctet.getLsbD 3 = false ∧ st.toOctet.getLsbD 6 = false ∧ st.toOctet.getLsbD 7 = false := by
  obtain ⟨rv, vv, vok, err⟩ := st
  cases err <;> revert rv vv vok <;> decide

/-- Settles O5: the flags bit by bit, and ERR by its code, which no two faults share and which is never 0b11. -/
theorem statusOctetFields : Obligations.StatusOctetFields := by
  intro st
  obtain ⟨hrv, hvv, hvok, h₃, h₆, h₇⟩ := st.toOctet_flags
  refine ⟨hrv, hvv, hvok, h₃, h₆, h₇, ?_⟩
  rw [st.toOctet_err]
  cases st.err <;> decide

end Sys2Proof.Machine
end

section
/-! PROOFS. The octets of multi-octet values and of the datagram's spans (R42, R53, R54). -/

namespace Sys2Proof.Machine

/-- The number a 16-bit value's two octets write out (R42). -/
theorem toNat_eq_octets16 (v : Word) :
    v.toNat = (v.extractLsb' 8 8).toNat * 256 + (v.extractLsb' 0 8).toNat := by
  rw [← be16_toNat, be16_extract]

/-- The number a 32-bit value's four octets write out (R42). -/
theorem toNat_eq_octets32 (v : Acc32) :
    v.toNat = (((v.extractLsb' 24 8).toNat * 256 + (v.extractLsb' 16 8).toNat) * 256 +
      (v.extractLsb' 8 8).toNat) * 256 + (v.extractLsb' 0 8).toNat := by
  rw [← be32_toNat, be32_extract]

/-- Settles O3: the window's octets are those of ACC and RESULT, which write out the registers. -/
theorem windowIsBigEndian : Obligations.WindowIsBigEndian := fun s =>
  ⟨_, _, _, _, _, _, _, _, rfl, toNat_eq_octets32 s.acc, toNat_eq_octets16 s.result⟩

/-- Settles O48: each field stands in its span as its octets, which write it out. -/
theorem datagramSpanLayouts : Obligations.DatagramSpanLayouts :=
  ⟨fun src dst len => ⟨_, _, _, _, _, _, _, _, _, _, rfl,
      toNat_eq_octets32 src, toNat_eq_octets32 dst, toNat_eq_octets16 len⟩,
   fun sp dp len ck => ⟨_, _, _, _, _, _, _, _, rfl,
      toNat_eq_octets16 sp, toNat_eq_octets16 dp, toNat_eq_octets16 len, toNat_eq_octets16 ck, rfl⟩⟩

end Sys2Proof.Machine
end

section
/-! PROOFS. Host reads of the readback window (R41, R46). -/

namespace Sys2Proof.Machine

variable (s : State)

/-- The window has eight octets (R41). -/
@[simp] theorem State.window_length : s.window.length = 8 := rfl

/-- A read inside the window answers its octet. -/
theorem State.readback_of_lt {k : Nat} (h : k < 8) : ∃ o, s.readback k = .ok o := by
  have hlt : k < s.window.length := h.trans_eq s.window_length.symm
  have hk : s.window[k]? = some s.window[k] := List.getElem?_eq_getElem hlt
  exact ⟨s.window[k], by rw [State.readback, hk]⟩

/-- A read outside the window is refused (R41). -/
theorem State.readback_of_le {k : Nat} (h : 8 ≤ k) : s.readback k = .error (.noReadbackOffset k) := by
  have hk : s.window[k]? = none := List.getElem?_eq_none (s.window_length.trans_le h)
  rw [State.readback, hk]

/-- Settles O2: the offsets 0 to 7 one by one, the others by the window's length. -/
theorem readbackWindowLayout : Obligations.ReadbackWindowLayout := fun s =>
  ⟨rfl, rfl, rfl, rfl, rfl, rfl, rfl, rfl, fun _ h => s.readback_of_le h⟩

/-- A read of offsets inside the window answers them one by one, in the order asked (R46). -/
theorem State.readMany_of_lt {ks : List Nat} (h : ∀ k ∈ ks, k < 8) :
    ∃ os, s.readMany ks = .ok os ∧ List.Forall₂ (fun k o => s.readback k = .ok o) ks os := by
  induction ks with
  | nil => exact ⟨[], rfl, .nil⟩
  | cons k ks ih =>
    obtain ⟨hk, hks⟩ := List.forall_mem_cons.1 h
    obtain ⟨o, ho⟩ := s.readback_of_lt hk
    obtain ⟨os, hos, hall⟩ := ih hks
    exact ⟨o :: os, by simp only [State.readMany, ho, hos], .cons ho hall⟩

/-- A read that asks for one offset outside the window is refused under such an offset. -/
theorem State.readMany_of_le {ks : List Nat} (h : ∃ k ∈ ks, 8 ≤ k) :
    ∃ k, 8 ≤ k ∧ s.readMany ks = .error (.noReadbackOffset k) := by
  induction ks with
  | nil => simp at h
  | cons k ks ih =>
    rcases Nat.lt_or_ge k 8 with hk | hk
    · obtain ⟨o, ho⟩ := s.readback_of_lt hk
      obtain ⟨l, hl, hr⟩ := ih (by simpa [Nat.not_le.2 hk] using h)
      exact ⟨l, hl, by simp only [State.readMany, ho, hr]⟩
    · exact ⟨k, hk, by simp only [State.readMany, s.readback_of_le hk]⟩

/-- An answered read is a move that leaves the state (R46). -/
theorem Move.apply_read_of_ok {ks : List Nat} {os : List Octet} (h : s.readMany ks = .ok os) :
    (Move.read ks).apply s = .next s := by
  simp only [Move.apply, h]

/-- A refused read is a refused move. -/
theorem Move.apply_read_of_error {ks : List Nat} {r : Refusal} (h : s.readMany ks = .error r) :
    (Move.read ks).apply s = .refused r := by
  simp only [Move.apply, h]

/-- Settles O4: `readMany` octet by octet, or its refusal. -/
theorem readIsASnapshotWithoutEffect : Obligations.ReadIsASnapshotWithoutEffect := by
  intro s ks
  constructor
  · intro h
    obtain ⟨os, hos, hall⟩ := s.readMany_of_lt h
    refine ⟨Move.apply_read_of_ok s hos, os, hos, hall.length_eq.symm, fun j k hj => ?_⟩
    obtain ⟨hjk, rfl⟩ := List.getElem?_eq_some_iff.1 hj
    have hjo : j < os.length := hall.length_eq ▸ hjk
    exact ⟨os[j], List.getElem?_eq_getElem hjo, hall.get hjk hjo⟩
  · intro h
    obtain ⟨k, hk, hr⟩ := s.readMany_of_le h
    exact ⟨k, hk, Move.apply_read_of_error s hr⟩

/-- A whole read depends on the window alone. -/
theorem State.readMany_congr {s t : State} (h : s.window = t.window) (ks : List Nat) :
    s.readMany ks = t.readMany ks := by
  induction ks with
  | nil => rfl
  | cons k ks ih => simp only [State.readMany, State.readback_congr h k, ih]

/-- Reads do not see the octets that wait in the stream (R41). -/
theorem Move.answer_read_append (os : List Octet) (ks : List Nat) :
    (Move.read ks).answer (s.append os) = (Move.read ks).answer s :=
  State.readMany_congr (s := s.append os) (t := s) (State.window_of_registers rfl rfl rfl rfl) ks

end Sys2Proof.Machine
end

section
/-! PROOFS. The words of a span, of two spans and of a datagram's three (R43, R44, R56). -/

namespace Sys2Proof.Machine

/-- Two octets as the word they write out (R43). -/
theorem be16_eq_ofNat (hi lo : Octet) : be16 hi lo = BitVec.ofNat 16 (hi.toNat * 256 + lo.toNat) := by
  rw [← be16_toNat, BitVec.ofNat_toNat, BitVec.setWidth_eq]

/-- A span of n octets has ⌈n/2⌉ words (R43). -/
theorem words_length (d : List Octet) : (words d).length = (d.length + 1) / 2 := by
  induction d using words.induct with
  | case1 => rfl
  | case2 o => simp
  | case3 o₀ o₁ d ih => simp only [words_pair, List.length_cons, ih]; omega

/-- Word k is made of the octets 2k and 2k + 1 where both are there (R43). -/
theorem words_getElem?_of_pair {d : List Octet} {k : Nat} {hi lo : Octet}
    (hhi : d[2 * k]? = some hi) (hlo : d[2 * k + 1]? = some lo) : (words d)[k]? = some (be16 hi lo) := by
  induction d using words.induct generalizing k with
  | case1 => simp at hhi
  | case2 o => simp at hlo
  | case3 o₀ o₁ d ih =>
    cases k with
    | zero => cases hhi; cases hlo; rfl
    | succ k => exact ih hhi hlo

/-- Settles O23: the paired words by their two octets; an odd span is an even one with its last octet behind it. -/
theorem wordsByIndex : Obligations.WordsByIndex := by
  intro d
  refine ⟨words_length d, fun k hk => ?paired, fun hodd => ?last⟩
  case paired =>
    rw [Nat.shiftRight_one] at hk
    have hhi : d[2 * k]? = some d[2 * k] := List.getElem?_eq_getElem (by omega)
    have hlo : d[2 * k + 1]? = some d[2 * k + 1] := List.getElem?_eq_getElem (by omega)
    exact ⟨_, _, hhi, hlo, be16_eq_ofNat .. ▸ words_getElem?_of_pair hhi hlo⟩
  case last =>
    obtain ⟨a, o, rfl⟩ := List.eq_nil_or_concat d |>.resolve_left (by rintro rfl; simp at hodd)
    simp only [List.concat_eq_append, List.length_append, List.length_singleton] at hodd ⊢
    have ha : a.length % 2 = 0 := by omega
    have hk : (a.length + 1 + 1) / 2 - 1 = (words a).length := by rw [words_length]; omega
    refine ⟨o, List.getLast?_concat, ?_⟩
    rw [words_append_of_even _ _ ha, words_single, hk, List.getElem?_concat_length, be16_eq_ofNat,
      BitVec.toNat_ofNat, Nat.zero_mod, Nat.add_zero]

/-- A zero octet behind an odd span fills its last word, which was padded with it (R43). -/
theorem words_concat_zero_of_odd {a : List Octet} (h : a.length % 2 = 1) : words (a ++ [0x00#8]) = words a := by
  induction a using words.induct with
  | case1 => simp at h
  | case2 o => rfl
  | case3 o₀ o₁ a ih =>
    have ha : a.length % 2 = 1 := by simp only [List.length_cons] at h; omega
    simp [ih ha]

/-- A SUMW that leaves no fault leaves the exact sum in ACC (R82). -/
theorem exec_sumw_acc {d : List Octet} {s t : State} (h : exec (.sumw d) s = .next t)
    (ht : t.status.err = .none) : t.acc.toNat = sumWords s.acc.toNat d := by
  rcases Nat.lt_or_ge 0xFFFFFFFF (sumWords s.acc.toNat d) with ho | hf
  · cases h.symm.trans (exec_sumw_of_overflows ho)
    cases ht
  · cases h.symm.trans (exec_sumw_of_fits hf)
    exact Nat.mod_eq_of_lt (Nat.lt_succ_of_le hf)

/-- Settles O24: the two exact sums add up, and the joined spans' words split at an even place. -/
theorem spansPairIndependently : Obligations.SpansPairIndependently := by
  intro s t u a b _ hst ht htu hu
  refine ⟨?sum, fun ha => (words_append_of_even a b ha).symm, fun ha => ?odd⟩
  case sum =>
    rw [exec_sumw_acc htu hu, exec_sumw_acc hst ht]
    simp [sumWords_eq, Nat.add_assoc]
  case odd =>
    have hfull : (a ++ [0x00#8]).length % 2 = 0 := by rw [List.length_append, List.length_singleton]; omega
    calc words a ++ words b = words (a ++ [0x00#8]) ++ words b := by rw [words_concat_zero_of_odd ha]
      _ = words (a ++ [0x00#8] ++ b) := (words_append_of_even _ b hfull).symm
      _ = words (a ++ 0x00#8 :: b) := congrArg words (List.append_cons a _ b).symm

/-- Summing on after an even span is summing the two joined (R53, R54). -/
theorem sumWords_append_of_even (init : Nat) {a : List Octet} (b : List Octet) (h : a.length % 2 = 0) :
    sumWords init (a ++ b) = sumWords (sumWords init a) b := by
  simp [sumWords_eq, words_append_of_even a b h, Nat.add_assoc]

/-- Settles O47: both cuts of the joined buffer, at 20 and at 12 octets, are even. -/
theorem threeSpanPaddingAgrees : Obligations.ThreeSpanPaddingAgrees := by
  intro init p h d hp hh
  have heven : (p ++ h).length % 2 = 0 := by rw [List.length_append, hp, hh]
  rw [sumWords_append_of_even init d heven, sumWords_append_of_even init h (by rw [hp])]

end Sys2Proof.Machine
end

section
/-! PROOFS. A step with more octets behind its command (R51), and interleavings as engine runs (R49). -/

namespace Sys2Proof

/-- A command decodes the same with more octets behind it (R66). -/
theorem decode_command_append {os rest : List Octet} {i : Instr} (ps : List Octet)
    (h : decode os = .command i rest) : decode (os ++ ps) = .command i (rest ++ ps) := by
  rcases decode_cases os with ⟨-, e⟩ | ⟨_, rfl, e⟩ | ⟨_, _, _, _, _, rfl, e⟩ | ⟨_, -, -, e⟩ |
    ⟨o₁, o₂, d, r, rfl, hd, e⟩ | ⟨_, -, -, e⟩ | ⟨_, _, _, -, -, e⟩ | ⟨_, rfl, e⟩ | ⟨_, rfl, e⟩ | ⟨_, _, -, -, e⟩ <;>
    rw [e] at h <;> cases h
  · rfl
  · rfl
  · rw [List.cons_append, List.cons_append, List.cons_append, List.append_assoc, decode_sumw]
    exact decodeSumw_append o₁ o₂ _ _ hd
  · rfl
  · rfl

end Sys2Proof

namespace Sys2Proof.Machine

/-- An enabled step is not changed by octets appended behind it (R51). -/
theorem step_append {s t : State} (os : List Octet) (h : step s = .next t) :
    step (s.append os) = .next (t.append os) := by
  obtain ⟨he, hcase⟩ := step_cases h
  rw [step_of_none (s := s.append os) he, State.append_stream]
  obtain ⟨op, hd, rfl⟩ | ⟨i, rest, hd, hx⟩ := hcase
  · obtain ⟨r, hs, hop⟩ := decode_eq_illegal hd
    have hlen : 1 ≤ s.stream.length := by simp [hs]
    rw [hs, List.cons_append, decode_illegal _ hop]
    simp only [State.takeIllegal, State.consume_append s 1 os hlen]
    rfl
  · rw [decode_command_append os hd]
    simp only [State.consume_append s i.length os (decode_command_rest hd).1]
    exact exec_append os hx

/-- Settles O42: `step_append`, and what each move does to the stream. -/
theorem streamIsAppendOnly : Obligations.StreamIsAppendOnly := by
  refine ⟨fun s t os h => step_append os h, fun s t m hm h => ?_, fun s first more => rfl,
    fun s t ks h => (congrArg (outcomeState s) h).symm.trans (outcomeState_read s ks)⟩
  obtain ⟨rfl, hstep⟩ | ⟨first, more, rfl, rfl⟩ | ⟨ks, rfl, rfl⟩ | ⟨rfl, -⟩ := Move.apply_cases h
  · obtain ⟨n, -, -, hn, hpos, hstream⟩ := step_consumes hstep
    exact ⟨n, hn, by simpa [Move.octets] using hstream, hpos⟩
  · exact ⟨0, Nat.zero_le _, rfl, rfl⟩
  · exact ⟨0, Nat.zero_le _, by simp [Move.octets], rfl⟩
  · exact absurd rfl hm

@[simp] theorem engineSteps_zero (s : State) : engineSteps 0 s = s := rfl

/-- A run goes on from an enabled step. -/
theorem engineSteps_succ_of_step {s t : State} (h : step s = .next t) (n : Nat) :
    engineSteps (n + 1) s = engineSteps n t := by
  simp only [engineSteps, h]

/-- A run stays where there is no step (R71, R123). -/
theorem engineSteps_of_no_step {s : State} (h : ¬ ∃ t, step s = .next t) (n : Nat) : engineSteps n s = s := by
  cases n with
  | zero => rfl
  | succ n =>
    cases hs : step s with
    | next t => exact absurd ⟨t, hs⟩ h
    | fault r => simp only [engineSteps, hs]
    | refused r => simp only [engineSteps, hs]

/-- A run made of two, one after the other. -/
theorem engineSteps_add (m n : Nat) (s : State) : engineSteps (m + n) s = engineSteps n (engineSteps m s) := by
  induction m generalizing s with
  | zero => rw [Nat.zero_add, engineSteps_zero]
  | succ m ih =>
    by_cases h : ∃ t, step s = .next t
    · obtain ⟨t, h⟩ := h
      rw [Nat.succ_add, engineSteps_succ_of_step h, engineSteps_succ_of_step h, ih]
    · rw [engineSteps_of_no_step h, engineSteps_of_no_step h, engineSteps_of_no_step h]

/-- A run of as many steps as there are unconsumed octets ends, since every step consumes one (R71). -/
theorem engineSteps_no_step_of_avail_le {n : Nat} {s : State} (hn : s.avail ≤ n) :
    ¬ ∃ t, step (engineSteps n s) = .next t := by
  induction n generalizing s with
  | zero =>
    rintro ⟨t, ht⟩
    obtain ⟨k, -, hk, hle, -, -⟩ := step_consumes ht
    exact absurd (Nat.le_trans hk (Nat.le_trans hle hn)) (by decide)
  | succ n ih =>
    by_cases h : ∃ t, step s = .next t
    · obtain ⟨t, h⟩ := h
      obtain ⟨k, -, hk, -, hpos, -⟩ := step_consumes h
      have hsum := step_pos_add_avail h
      rw [engineSteps_succ_of_step h]
      exact ih (by omega)
    · rwa [engineSteps_of_no_step h]

/-- Wherever a run has no step left, it is where the engine ends. -/
theorem engineSteps_eq_runEngine {n : Nat} {s : State} (h : ¬ ∃ t, step (engineSteps n s) = .next t) :
    engineSteps n s = runEngine s := by
  calc engineSteps n s = engineSteps s.avail (engineSteps n s) := (engineSteps_of_no_step h _).symm
    _ = engineSteps n (engineSteps s.avail s) := by rw [← engineSteps_add, Nat.add_comm, engineSteps_add]
    _ = runEngine s := engineSteps_of_no_step (engineSteps_no_step_of_avail_le (Nat.le_refl _)) n

/-- A quiescent engine has no step (R149). -/
theorem no_step_of_quiescent {s : State} (h : s.quiescent = true) : ¬ ∃ t, step s = .next t := by
  rintro ⟨t, ht⟩
  obtain ⟨he, -⟩ := step_cases ht
  obtain ⟨n, hlen, -, hn, -, -⟩ := step_consumes ht
  simp [State.quiescent, startsComplete, he, hlen, hn] at h

/-- A move but a reset, with octets waiting behind it, is at most a step of the engine that had its octets from the
start (R49). -/
theorem outcomeState_append_eq_engineSteps (s : State) {m : Move} (hm : m ≠ .reset) (os : List Octet) :
    ∃ k, (outcomeState s (m.apply s)).append os = engineSteps k (s.append (m.octets ++ os)) := by
  cases m with
  | engine =>
    by_cases h : ∃ t, step s = .next t
    · obtain ⟨t, h⟩ := h
      exact ⟨1, by rw [outcomeState_engine h]; exact (engineSteps_succ_of_step (step_append os h) 0).symm⟩
    · exact ⟨0, by rw [outcomeState_engine_of_no_step h]; rfl⟩
  | append first more => exact ⟨0, by rw [outcomeState_append, State.append_append]; rfl⟩
  | read ks => exact ⟨0, by rw [outcomeState_read]; rfl⟩
  | reset => exact absurd rfl hm

/-- An interleaving without a reset is a run of the engine that had all octets from the start (R49). -/
theorem schedule_append_eq_engineSteps (s : State) {ms : List Move} (h : .reset ∉ ms) (os : List Octet) :
    ∃ k, (schedule ms s).append os = engineSteps k (s.append (appended ms ++ os)) := by
  induction ms generalizing s with
  | nil => exact ⟨0, rfl⟩
  | cons m ms ih =>
    obtain ⟨hm, hms⟩ := List.ne_and_not_mem_of_not_mem_cons h
    obtain ⟨j, hj⟩ := outcomeState_append_eq_engineSteps s hm.symm (appended ms ++ os)
    obtain ⟨k, hk⟩ := ih (outcomeState s (m.apply s)) hms
    exact ⟨j + k, by rw [schedule_cons, hk, hj, engineSteps_add, appended_cons, List.append_assoc]⟩

/-- The same with nothing waiting behind the interleaving. -/
theorem schedule_eq_engineSteps (s : State) {ms : List Move} (h : .reset ∉ ms) :
    ∃ k, schedule ms s = engineSteps k (s.append (appended ms)) := by
  simpa using schedule_append_eq_engineSteps s h []

/-- Settles O43: the first moves are a run of the engine that has all octets, the others take it on, and reads do not
see what waits in the stream. -/
theorem readsShowAGrowingPrefix : Obligations.ReadsShowAGrowingPrefix := by
  intro s ms ns hms hns
  constructor
  · obtain ⟨j, hj⟩ := schedule_append_eq_engineSteps s hms (appended ns)
    obtain ⟨k, hk⟩ := schedule_eq_engineSteps (schedule ms s) hns
    rw [← appended_append] at hj
    have hjk : schedule (ms ++ ns) s = engineSteps (j + k) (s.append (appended (ms ++ ns))) := by
      rw [schedule_append, hk, hj, engineSteps_add]
    exact ⟨j, j + k, Nat.le_add_right j k, hj, hjk,
      fun ks => ⟨by rw [← hj, Move.answer_read_append], by rw [hjk]⟩⟩
  · intro hq
    obtain ⟨k, hk⟩ := schedule_eq_engineSteps s hms
    have hend : schedule ms s = runEngine (s.append (appended ms)) := by
      rw [hk]
      exact engineSteps_eq_runEngine (hk ▸ no_step_of_quiescent hq)
    exact ⟨hend, fun ks => by rw [hend]⟩

end Sys2Proof.Machine
end

section
/-! PROOFS. The encoding: decoding undoes it and it undoes decoding (R60 to R66), and what a command's length says. -/

namespace Sys2Proof

open Machine

/-- A command's encoding has its length (R61). -/
theorem encode_length (i : Instr) : (encode i).length = i.length := by
  cases i with
  | clr => exact Laws.EncodeLength.clr
  | ldacc imm => exact Laws.EncodeLength.ldacc imm
  | sumw d => exact Laws.EncodeLength.sumw d
  | compute => exact Laws.EncodeLength.compute
  | verify => exact Laws.EncodeLength.verify

/-- LEN of a span that an encoding can carry is the span's length (R63). -/
theorem toNat_len_of_le {d : List Octet} (h : d.length ≤ 65535) : (BitVec.ofNat 16 d.length).toNat = d.length :=
  Nat.mod_eq_of_lt (Nat.lt_succ_of_le h)

/-- Settles O9: the octets of an immediate and of a LEN assemble to it again. -/
theorem decodeOfEncodeGivesTheCommand : Obligations.DecodeOfEncodeGivesTheCommand := by
  intro i rest hwf
  cases i with
  | clr => rfl
  | ldacc imm => exact congrArg (fun v => Decoded.command (.ldacc v) rest) (be32_extract imm)
  | sumw d =>
    have hlen : d.length = (be16 _ _).toNat :=
      (toNat_len_of_le ((wf_sumw d).1 hwf)).symm.trans (congrArg BitVec.toNat (be16_extract _).symm)
    exact decodeSumw_append _ _ d rest hlen
  | compute => rfl
  | verify => rfl

/-- A LEN is at most 65535 (R63). -/
theorem be16_toNat_le (hi lo : Octet) : (be16 hi lo).toNat ≤ 65535 := Nat.le_of_lt_succ (be16 hi lo).isLt

/-- Settles O7: LEN and IMM32 are `be16` and `be32` of their octets. -/
theorem operandsAssembleBigEndian : Obligations.OperandsAssembleBigEndian := by
  refine ⟨fun o₁ o₂ d rest h => ?_, fun o₁ o₂ o₃ o₄ rest => ⟨be32 o₁ o₂ o₃ o₄, rfl, be32_toNat o₁ o₂ o₃ o₄⟩⟩
  have hlen : d.length = (be16 o₁ o₂).toNat := h.trans (be16_toNat o₁ o₂).symm
  exact ⟨decodeSumw_append o₁ o₂ d rest hlen, hlen ▸ be16_toNat_le o₁ o₂⟩

/-- The encoding of a SUMW whose LEN is written out (R63). -/
theorem encode_sumw_of_length {o₁ o₂ : Octet} {d : List Octet} (h : d.length = (be16 o₁ o₂).toNat) :
    encode (.sumw d) = 0x03#8 :: o₁ :: o₂ :: d := by
  have hlen : BitVec.ofNat 16 d.length = be16 o₁ o₂ := by rw [h, BitVec.ofNat_toNat, BitVec.setWidth_eq]
  rw [encode, hlen, octets16_be16]
  rfl

/-- Settles O10: the octets of each case that `decode` answers with a command. -/
theorem decodedCommandHasThatEncoding : Obligations.DecodedCommandHasThatEncoding := by
  intro os rest i h
  rw [← and_assoc]
  refine ⟨?_, encode_length i⟩
  rcases decode_cases os with ⟨-, e⟩ | ⟨_, rfl, e⟩ | ⟨o₁, o₂, o₃, o₄, _, rfl, e⟩ | ⟨_, -, -, e⟩ |
    ⟨o₁, o₂, d, _, rfl, hd, e⟩ | ⟨_, -, -, e⟩ | ⟨_, _, _, -, -, e⟩ | ⟨_, rfl, e⟩ | ⟨_, rfl, e⟩ | ⟨_, _, -, -, e⟩ <;>
    rw [e] at h <;> cases h
  · exact ⟨rfl, rfl⟩
  · exact ⟨rfl, by rw [encode, octets32_be32]; rfl⟩
  · exact ⟨(wf_sumw d).2 (hd ▸ be16_toNat_le o₁ o₂), by rw [encode_sumw_of_length hd]; rfl⟩
  · exact ⟨rfl, rfl⟩
  · exact ⟨rfl, rfl⟩

/-- LDACC's length is in its opcode octet (R66). -/
@[simp] theorem commandLength_ldacc (r : List Octet) : commandLength (0x02#8 :: r) = some 5 := rfl

/-- SUMW's length is in its first three octets (R66). -/
@[simp] theorem commandLength_sumw (o₁ o₂ : Octet) (r : List Octet) :
    commandLength (0x03#8 :: o₁ :: o₂ :: r) = some (3 + (be16 o₁ o₂).toNat) := rfl

/-- A SUMW without its two LEN octets has no known length (R66). -/
theorem commandLength_sumw_short {r : List Octet} (h : r.length < 2) : commandLength (0x03#8 :: r) = none := by
  rcases r with - | ⟨o₁, - | ⟨o₂, r⟩⟩
  · rfl
  · rfl
  · simp at h

/-- Every other opcode octet is a whole command (R61, R66). -/
theorem commandLength_of_ne {op : Octet} (r : List Octet) (h₂ : op ≠ 0x02#8) (h₃ : op ≠ 0x03#8) :
    commandLength (op :: r) = some 1 := by
  simp [commandLength, opLdacc, opSumw, h₂, h₃]

/-- When a length is not known yet (R66). -/
theorem commandLength_eq_none_iff (os : List Octet) :
    commandLength os = none ↔ os = [] ∨ (os.head? = some 0x03#8 ∧ os.length < 3) := by
  rcases os with - | ⟨op, r⟩
  · exact iff_of_true rfl (.inl rfl)
  by_cases h₂ : op = 0x02#8
  · subst h₂; simp
  by_cases h₃ : op = 0x03#8
  · subst h₃
    rcases r with - | ⟨o₁, - | ⟨o₂, r⟩⟩
    · exact iff_of_true rfl (.inr ⟨rfl, by decide⟩)
    · exact iff_of_true rfl (.inr ⟨rfl, by simp⟩)
    · simp
  · simp [commandLength_of_ne r h₂ h₃, h₃]

/-- A stream decodes as empty only if it is (R71). -/
theorem decode_eq_empty {os : List Octet} (h : decode os = .empty) : os = [] := by
  rcases decode_cases os with ⟨hs, e⟩ | ⟨_, -, e⟩ | ⟨_, _, _, _, _, -, e⟩ | ⟨_, -, -, e⟩ | ⟨_, _, _, _, -, -, e⟩ |
    ⟨_, -, -, e⟩ | ⟨_, _, _, -, -, e⟩ | ⟨_, -, e⟩ | ⟨_, -, e⟩ | ⟨_, _, -, -, e⟩ <;> rw [e] at h <;> cases h
  exact hs

/-- An incomplete command: its opcode octet is there, and as many octets as its length says are not (R66, R71). -/
theorem decode_eq_incomplete {os : List Octet} (h : decode os = .incomplete) :
    os ≠ [] ∧ ∀ n, commandLength os = some n → os.length < n := by
  rcases decode_cases os with ⟨-, e⟩ | ⟨_, -, e⟩ | ⟨_, _, _, _, _, -, e⟩ | ⟨r, rfl, hr, e⟩ | ⟨_, _, _, _, -, -, e⟩ |
    ⟨r, rfl, hr, e⟩ | ⟨o₁, o₂, r, rfl, hr, e⟩ | ⟨_, -, e⟩ | ⟨_, -, e⟩ | ⟨_, _, -, -, e⟩ <;> rw [e] at h <;> cases h
  · refine ⟨nofun, fun n hn => ?_⟩
    cases hn
    exact Nat.succ_lt_succ hr
  · refine ⟨nofun, fun n hn => ?_⟩
    cases (commandLength_sumw_short hr).symm.trans hn
  · refine ⟨nofun, fun n hn => ?_⟩
    cases hn
    simp only [List.length_cons]
    omega

/-- Settles O8: the first octets one by one, and the last clause by what the stream decodes to. -/
theorem lengthDecidesDecoding : Obligations.LengthDecidesDecoding := by
  refine ⟨fun _ r h₂ h₃ => commandLength_of_ne r h₂ h₃, commandLength_ldacc,
    fun o₁ o₂ r => be16_toNat o₁ o₂ ▸ commandLength_sumw o₁ o₂ r, commandLength_eq_none_iff, fun os n hn => ?_⟩
  cases hd : decode os with
  | empty => cases decode_eq_empty hd; cases hn
  | incomplete =>
    have hlt : os.length < n := (decode_eq_incomplete hd).2 n hn
    exact ⟨fun hle => absurd hle (Nat.not_le.2 hlt), fun _ => rfl⟩
  | illegal op =>
    obtain ⟨r, rfl, hop⟩ := decode_eq_illegal hd
    cases (commandLength_of_illegal r hop).symm.trans hn
    exact ⟨fun _ => .inr ⟨rfl, op, rfl, rfl⟩, fun hlt => absurd hlt (by simp)⟩
  | command i rest =>
    obtain ⟨hle, rfl⟩ := decode_command_rest hd
    cases (commandLength_of_command hd).symm.trans hn
    exact ⟨fun _ => .inl ⟨i, rfl, rfl⟩, fun hlt => absurd hle (Nat.not_le.2 hlt)⟩

/-- Settles O6: by evaluating the decoder on each of the written-out sequences. -/
theorem writtenOutOctetsDecode : Obligations.WrittenOutOctetsDecode := by
  unfold Obligations.WrittenOutOctetsDecode
  decide

end Sys2Proof
end

section
/-! PROOFS. When a step is enabled and what stops it (R71, R123, R149). -/

namespace Sys2Proof.Machine

/-- Settles O11: consuming a decoded command leaves what the decoder calls the rest. -/
theorem stepRunsTheDecodedCommand : Obligations.StepRunsTheDecodedCommand := by
  intro s i rest he hd
  obtain ⟨-, rfl⟩ := decode_command_rest hd
  rw [step_of_none he, hd]
  rfl

/-- A stream starts with a complete command when it has as many octets as that command's length (R66, R71). -/
theorem startsComplete_iff (os : List Octet) :
    startsComplete os = true ↔ ∃ n, commandLength os = some n ∧ n ≤ os.length := by
  cases h : commandLength os <;> simp [startsComplete, h]

/-- Every command completes (R80 to R84, R103, R104). -/
theorem exec_completes (i : Instr) (s : State) : ∃ t, exec i s = .next t := by
  rcases exec_cases i s with ⟨-, e⟩ | ⟨_, -, e⟩ | ⟨_, -, -, e⟩ | ⟨_, -, -, e⟩ | ⟨-, e⟩ | ⟨-, e⟩ <;> exact ⟨_, e⟩

/-- What an engine without a fault does: nothing on an empty stream, nothing on an incomplete command, and a step on a
complete one (R71). -/
theorem step_outcomes {s : State} (he : s.status.err = .none) :
    (s.stream = [] ∧ startsComplete s.stream = false ∧ step s = .fault .idle) ∨
    (s.stream ≠ [] ∧ startsComplete s.stream = false ∧ step s = .fault .incompleteCommand) ∨
    (s.stream ≠ [] ∧ startsComplete s.stream = true ∧ ∃ t, step s = .next t) := by
  rw [step_of_none he]
  cases hd : decode s.stream with
  | empty =>
    have hs := decode_eq_empty hd
    exact .inl ⟨hs, by rw [hs]; rfl, rfl⟩
  | incomplete =>
    obtain ⟨hs, hshort⟩ := decode_eq_incomplete hd
    have hc : ¬ startsComplete s.stream = true := by
      rw [startsComplete_iff]
      rintro ⟨n, hn, hle⟩
      exact Nat.not_le.2 (hshort n hn) hle
    exact .inr (.inl ⟨hs, Bool.eq_false_iff.2 hc, rfl⟩)
  | illegal op =>
    obtain ⟨r, hs, hop⟩ := decode_eq_illegal hd
    have hc : startsComplete s.stream = true :=
      (startsComplete_iff _).2 ⟨1, hs ▸ commandLength_of_illegal r hop, by simp [hs]⟩
    exact .inr (.inr ⟨by simp [hs], hc, _, rfl⟩)
  | command i rest =>
    have hle := (decode_command_rest hd).1
    have hc : startsComplete s.stream = true := (startsComplete_iff _).2 ⟨_, commandLength_of_command hd, hle⟩
    have hs : s.stream ≠ [] := List.ne_nil_of_length_pos (Nat.lt_of_lt_of_le i.one_le_length hle)
    exact .inr (.inr ⟨hs, hc, exec_completes i _⟩)

/-- The enabled condition of R71. -/
theorem step_enabled_iff (s : State) :
    (∃ t, step s = .next t) ↔ s.status.err = .none ∧ startsComplete s.stream = true := by
  by_cases he : s.status.err = .none
  · rcases step_outcomes he with ⟨-, hc, hstep⟩ | ⟨-, hc, hstep⟩ | ⟨-, hc, hstep⟩ <;> simp [he, hc, hstep]
  · simp [step_of_faulted he, he]

/-- A successful end is an engine without a fault and without octets (R149). -/
theorem State.endsSuccessfully_iff (s : State) :
    s.endsSuccessfully = true ↔ s.status.err = .none ∧ s.stream = [] := by
  simp only [State.endsSuccessfully, Bool.and_eq_true, decide_eq_true_eq]
  refine ⟨fun ⟨⟨_, he⟩, hs⟩ => ⟨he, hs⟩, fun ⟨he, hs⟩ => ⟨⟨?_, he⟩, hs⟩⟩
  rw [State.quiescent, he, hs]
  rfl

/-- Settles O53: the outcomes of a step exclude each other, as do the conditions of the three stops. -/
theorem stopsAreNamedByTheirCause : Obligations.StopsAreNamedByTheirCause := by
  intro s
  have hstays : s.quiescent = true → outcomeState s (Move.engine.apply s) = s :=
    fun hq => outcomeState_engine_of_no_step (no_step_of_quiescent hq)
  rw [State.endsSuccessfully_iff]
  by_cases he : s.status.err = .none
  · rcases step_outcomes he with ⟨hs, -, hstep⟩ | ⟨hs, hc, hstep⟩ | ⟨hs, hc, t, hstep⟩
    · simpa [hstep, he, hs] using hstays
    · simpa [hstep, he, hs, hc] using hstays
    · simpa [hstep, he, hs, hc] using hstays
  · simpa [step_of_faulted he, he] using hstays

end Sys2Proof.Machine
end

section
/-! PROOFS. The step against R71's pseudocode, row by row. -/

namespace Sys2Proof.Machine

/-- Past a whole pair, the words by index are those of the span behind it (R43). -/
theorem wordAt_succ (o₀ o₁ : Octet) (d : List Octet) (k : Nat) : wordAt (o₀ :: o₁ :: d) (k + 1) = wordAt d k := by
  have hpair : 2 * (k + 1) + 1 < (o₀ :: o₁ :: d).length ↔ 2 * k + 1 < d.length := by
    simp only [List.length_cons]; omega
  simp only [wordAt, hpair]
  rfl

/-- The words by index are the words in order (R43). -/
theorem map_wordAt_range (d : List Octet) :
    (List.range ((d.length + 1) / 2)).map (wordAt d) = (words d).map BitVec.toNat := by
  induction d using words.induct with
  | case1 => rfl
  | case2 o => simp [wordAt, be16_toNat]
  | case3 o₀ o₁ d ih =>
    have hcount : ((o₀ :: o₁ :: d).length + 1) / 2 = (d.length + 1) / 2 + 1 := by
      simp only [List.length_cons]; omega
    have htail : wordAt (o₀ :: o₁ :: d) ∘ Nat.succ = wordAt d := funext (wordAt_succ o₀ o₁ d)
    rw [hcount, List.range_succ_eq_map, List.map_cons, List.map_map, htail, ih, words_pair, List.map_cons, be16_toNat]
    simp [wordAt]

/-- The sum over the indices is the sum over the words (R83). -/
theorem sumWordsAt_eq (init : Nat) (d : List Octet) : sumWordsAt init d = sumWords init d := by
  rw [sumWordsAt, Nat.shiftRight_one, map_wordAt_range, sumWords_eq]

variable {s : State}

/-- `Peek` where the octets in front are known. -/
theorem State.peekD_of_stream {os : List Octet} (h : s.stream = os) (k : Nat) : s.peekD k = os.getD k 0x00#8 := by
  rw [State.peekD, State.peek, h, List.getD_eq_getElem?_getD]

/-- The span that the pseudocode peeks octet by octet (R82). -/
theorem State.map_peekD_span {o₀ o₁ o₂ : Octet} {d r : List Octet} (h : s.stream = o₀ :: o₁ :: o₂ :: (d ++ r)) :
    (List.range d.length).map (fun j => s.peekD (3 + j)) = d := by
  refine List.ext_getElem (by simp) fun j _ hj => ?_
  simp [State.peekD_of_stream h, Nat.add_comm 3 j, List.getElem?_append_left, hj]

/-- The pseudocode of a whole SUMW (R82, R84). -/
theorem pseudocodeStep_sumw {o₁ o₂ : Octet} {d r : List Octet} (he : s.status.err = .none)
    (h : s.stream = 0x03#8 :: o₁ :: o₂ :: (d ++ r)) (hd : d.length = (be16 o₁ o₂).toNat) :
    pseudocodeStep s =
      if 0xFFFFFFFF < sumWords s.acc.toNat d then some ((s.consume (3 + d.length)).enterFault .accOverflow 0x03#8)
      else some ((s.consume (3 + d.length)).setAcc (BitVec.ofNat 32 (sumWords s.acc.toNat d))) := by
  have hlen : (s.peekD 1).toNat * 256 + (s.peekD 2).toNat = d.length := by
    rw [State.peekD_of_stream h, State.peekD_of_stream h, hd, be16_toNat]; rfl
  have havail : s.avail = 3 + d.length + r.length := by
    simp only [State.avail, h, List.length_cons, List.length_append]; omega
  have h₁ : ¬ s.avail < 1 := by omega
  have h₃ : ¬ s.avail < 3 := by omega
  have hspan : ¬ s.avail < 3 + d.length := by omega
  simp only [pseudocodeStep, hlen, State.map_peekD_span h, sumWordsAt_eq]
  rw [if_neg (not_not_intro he), if_neg h₁, if_neg h₃, if_neg hspan, State.peekD_of_stream h]
  rfl

/-- Each row of R33 is what the pseudocode gives. -/
theorem StepRow.pseudocodeStep_eq {t : State} (he : s.status.err = .none) (row : StepRow s t) :
    pseudocodeStep s = some t := by
  have havail : ¬ s.avail < 1 := by
    obtain ⟨n, -, hpos, hle, -, -⟩ := step_consumes (row.step_eq he)
    exact Nat.not_lt.2 (Nat.le_trans hpos hle)
  cases row with
  | sumwFits h hd hf => rw [pseudocodeStep_sumw he h hd, if_neg (Nat.not_lt.2 hf)]
  | sumwOverflows h hd ho => rw [pseudocodeStep_sumw he h hd, if_pos ho]
  | clr h =>
    rw [pseudocodeStep, if_neg (not_not_intro he), if_neg havail, State.peekD_of_stream h]; rfl
  | ldacc h =>
    have h₅ : ¬ s.avail < 5 := by simp [State.avail, h]
    rw [pseudocodeStep, if_neg (not_not_intro he), if_neg havail, if_neg h₅, be32_eq_ofNat]
    simp only [State.peekD_of_stream h]; rfl
  | compute h =>
    rw [pseudocodeStep, if_neg (not_not_intro he), if_neg havail, State.peekD_of_stream h]; rfl
  | verify h =>
    rw [pseudocodeStep, if_neg (not_not_intro he), if_neg havail, State.peekD_of_stream h, verdict_eq]; rfl
  | illegal h hop =>
    rw [pseudocodeStep, if_neg (not_not_intro he), if_neg havail, State.peekD_of_stream h]
    simp +decide only [List.getD_cons_zero, illegal_ne_opcode hop, if_false]; rfl

/-- A `require` of the pseudocode fails where the stream starts with no complete command (R71). -/
theorem pseudocodeStep_eq_none_of_incomplete (hc : startsComplete s.stream = false) : pseudocodeStep s = none := by
  have hshort : ∀ n, commandLength s.stream = some n → s.avail < n := by
    intro n hn
    by_contra hle
    exact Bool.false_ne_true (hc.symm.trans ((startsComplete_iff _).2 ⟨n, hn, Nat.not_lt.1 hle⟩))
  rcases hs : s.stream with - | ⟨op, r⟩
  · simp [pseudocodeStep, State.avail, hs]
  rw [hs] at hshort
  have hop := s.peekD_of_stream hs 0
  by_cases h₂ : op = 0x02#8
  · subst h₂
    have h₅ : s.avail < 5 := hshort 5 rfl
    simp [pseudocodeStep, hop, h₅]
  by_cases h₃ : op = 0x03#8
  · subst h₃
    rcases r with - | ⟨o₁, - | ⟨o₂, r⟩⟩
    · simp [pseudocodeStep, hop, State.avail, hs]
    · simp [pseudocodeStep, hop, State.avail, hs]
    · have hspan : s.avail < 3 + (o₁.toNat * 256 + o₂.toNat) := be16_toNat o₁ o₂ ▸ hshort _ rfl
      simp [pseudocodeStep, State.peekD_of_stream hs, hspan]
  · have h₁ : s.avail < 1 := hshort 1 (commandLength_of_ne r h₂ h₃)
    simp [pseudocodeStep, h₁]

/-- A `require` of the pseudocode fails where the engine has no step (R71). -/
theorem pseudocodeStep_eq_none_of_no_step (h : ¬ ∃ t, step s = .next t) : pseudocodeStep s = none := by
  by_cases he : s.status.err = .none
  · exact pseudocodeStep_eq_none_of_incomplete (Bool.eq_false_iff.2 fun hc => h ((step_enabled_iff s).2 ⟨he, hc⟩))
  · rw [pseudocodeStep, if_pos he]

/-- Settles O12: each row of a step is what the pseudocode gives, and where there is no step a `require` fails. -/
theorem stepIsThePseudocode : Obligations.StepIsThePseudocode := by
  intro s
  have hnext (t : State) : step s = .next t ↔ pseudocodeStep s = some t := by
    constructor
    · rw [step_eq_next_iff]
      exact fun ⟨he, row⟩ => row.pseudocodeStep_eq he
    · intro hp
      obtain ⟨u, hu⟩ : ∃ u, step s = .next u := by
        by_contra hno
        cases (pseudocodeStep_eq_none_of_no_step hno).symm.trans hp
      obtain ⟨he, row⟩ := step_eq_next_iff.1 hu
      cases (row.pseudocodeStep_eq he).symm.trans hp
      exact hu
  refine ⟨hnext, step_enabled_iff s, ?_⟩
  rintro hnone ⟨t, ht⟩
  cases hnone.symm.trans ((hnext t).1 ht)

end Sys2Proof.Machine
end

section
/-! PROOFS. The assembler: what it takes, what it refuses, and the pseudo-commands (R68, R69). -/

namespace Sys2Proof.Machine

/-- Octets written as numbers assemble to themselves (R68). -/
@[simp] theorem asmOctets_map_toNat (os : List Octet) : asmOctets (os.map BitVec.toNat) = .ok os := by
  induction os with
  | nil => rfl
  | cons o os ih =>
    have ho : o.toNat ≤ 0xFF := Nat.le_of_lt_succ o.isLt
    simp [asmOctets, ho, ih]

/-- A number above 0xFF is no octet (R68). -/
theorem asmOctets_of_out_of_range {bs : List Nat} (h : ∃ b ∈ bs, 0xFF < b) : asmOctets bs = .error .outOfRange := by
  induction bs with
  | nil => simp at h
  | cons b bs ih =>
    by_cases hb : b ≤ 0xFF
    · simp [asmOctets, hb, ih (by simpa [Nat.not_lt.2 hb] using h)]
    · simp [asmOctets, hb]

/-- A span that LEN can count is taken (R63, R68). -/
theorem asmSpan_map_toNat {d : List Octet} (h : d.length ≤ 65535) : asmSpan (d.map BitVec.toNat) = .ok d := by
  rw [asmSpan, if_pos (by rwa [List.length_map]), asmOctets_map_toNat]

/-- A longer list is refused, never split (R68). -/
theorem asmSpan_of_too_long {bs : List Nat} (h : 65535 < bs.length) : asmSpan bs = .error .spanTooLong :=
  if_neg (Nat.not_le.2 h)

/-- A span with a number above 0xFF is refused, under its length where that is refused too (log entry 12). -/
theorem asmSpan_of_out_of_range {bs : List Nat} (h : ∃ b ∈ bs, 0xFF < b) : ∃ e, asmSpan bs = .error e := by
  rcases Nat.lt_or_ge 65535 bs.length with hlong | hle
  · exact ⟨_, asmSpan_of_too_long hlong⟩
  · exact ⟨_, (if_pos hle).trans (asmOctets_of_out_of_range h)⟩

/-- A 32-bit value written as a number is taken (R64, R68). -/
@[simp] theorem asmImm_toNat (imm : Acc32) : asmImm imm.toNat = .ok imm := by
  have himm : imm.toNat ≤ 0xFFFFFFFF := Nat.le_of_lt_succ imm.isLt
  rw [asmImm, if_pos himm, BitVec.ofNat_toNat, BitVec.setWidth_eq]

/-- A number of more than 32 bits is no immediate (R68). -/
theorem asmImm_of_out_of_range {imm : Nat} (h : 0xFFFFFFFF < imm) : asmImm imm = .error .outOfRange :=
  if_neg (Nat.not_le.2 h)

/-- The statement that spells a well-formed command assembles to its encoding (R68). -/
theorem assembleLine_ofInstr {i : Instr} (h : i.wf = true) : assembleLine (AsmLine.ofInstr i) = .ok (encode i) := by
  cases i with
  | clr => rfl
  | ldacc imm => simp only [AsmLine.ofInstr, assembleLine, asmImm_toNat]
  | sumw d => simp only [AsmLine.ofInstr, assembleLine, asmSpan_map_toNat ((wf_sumw d).1 h)]
  | compute => rfl
  | verify => rfl

/-- Settles O51: the operands' refusals are the statement's. -/
theorem assemblerAgreesWithTheEncoding : Obligations.AssemblerAgreesWithTheEncoding := by
  refine ⟨fun _ h => assembleLine_ofInstr h, fun imm h => ?imm, fun bs h => ?long, fun bs h => ⟨?octet, ?byte⟩,
    asmOctets_map_toNat⟩
  case imm => simp only [assembleLine, asmImm_of_out_of_range h]
  case long => simp only [assembleLine, asmSpan_of_too_long h]
  case octet =>
    obtain ⟨e, he⟩ := asmSpan_of_out_of_range h
    exact ⟨e, by simp only [assembleLine, he]⟩
  case byte => exact asmOctets_of_out_of_range h

/-- Three spans that LEN can count are taken (R69). -/
theorem asmSpans3_map_toNat {p h d : List Octet} (hp : p.length ≤ 65535) (hh : h.length ≤ 65535)
    (hd : d.length ≤ 65535) :
    asmSpans3 (p.map BitVec.toNat) (h.map BitVec.toNat) (d.map BitVec.toNat) = .ok (p, h, d) := by
  simp only [asmSpans3, asmSpan_map_toNat hp, asmSpan_map_toNat hh, asmSpan_map_toNat hd]

/-- Settles O52: the spans are taken, and the expansion's encodings stand back to back. -/
theorem pseudoCommandExpansions : Obligations.PseudoCommandExpansions := by
  intro p h d init hp hh hd
  simp only [assembleLine, asmSpans3_map_toNat hp hh hd, asmImm_toNat, asmSpan_map_toNat hd, csum3, verify3, sumwi,
    encodeAll, List.append_nil, List.append_assoc, and_self]

end Sys2Proof.Machine
end

section
/-! PROOFS. Sums of words: what bounds them, and when they add nothing (R43, R83, R87). -/

namespace Sys2Proof.Machine

/-- An odd last octet is the high octet of one more word (R43). -/
theorem sumWords_concat_of_even (init : Nat) {d : List Octet} (o : Octet) (h : d.length % 2 = 0) :
    sumWords init (d ++ [o]) = sumWords init d + o.toNat * 256 := by
  rw [sumWords_append_of_even init [o] h, sumWords_eq (sumWords init d), words_single]
  simp [be16_toNat]

/-- The words of an all-zero span are zero (R43). -/
theorem eq_zero_of_mem_words {d : List Octet} (h : ∀ o ∈ d, o = 0x00#8) : ∀ w ∈ words d, w = 0x0000#16 := by
  induction d using words.induct with
  | case1 => nofun
  | case2 o => cases h o (.head _); simp [be16]
  | case3 o₀ o₁ d ih =>
    cases h o₀ (.head _)
    cases h o₁ (.tail _ (.head _))
    rw [words_pair, List.forall_mem_cons]
    exact ⟨rfl, ih fun o ho => h o (.tail _ (.tail _ ho))⟩

/-- An all-zero span adds nothing (R82). -/
theorem sumWords_of_zero {d : List Octet} (h : ∀ o ∈ d, o = 0x00#8) (init : Nat) : sumWords init d = init := by
  have hsum : ((words d).map BitVec.toNat).sum = 0 := by
    refine List.sum_eq_zero (List.forall_mem_map.2 fun w hw => ?_)
    rw [eq_zero_of_mem_words h w hw]
    rfl
  rw [sumWords_eq, hsum, Nat.add_zero]

/-- A non-zero word makes the sum grow. -/
theorem lt_sumWords_of_ne_zero {d : List Octet} (h : ∃ w ∈ words d, w ≠ 0) (init : Nat) :
    init < sumWords init d := by
  obtain ⟨w, hw, hne⟩ := h
  have hpos : 0 < w.toNat := Nat.pos_of_ne_zero fun h₀ => hne (BitVec.eq_of_toNat_eq h₀)
  have hle : w.toNat ≤ ((words d).map BitVec.toNat).sum := List.le_sum_of_mem (List.mem_map_of_mem hw)
  rw [sumWords_eq]
  omega

/-- The running sum inside a span is at most the sum at its end (R84). -/
theorem sum_take_words_le (d : List Octet) (k : Nat) :
    (((words d).take k).map BitVec.toNat).sum ≤ ((words d).map BitVec.toNat).sum :=
  ((List.take_sublist k (words d)).map BitVec.toNat).sum_le_sum fun _ _ => Nat.zero_le _

/-- The words of several spans, each paired from its own start, as one exact sum (R44, R86). -/
def spansTotal (ds : List (List Octet)) : Nat := (ds.map fun d => ((words d).map BitVec.toNat).sum).sum

@[simp] theorem spansTotal_nil : spansTotal [] = 0 := rfl
@[simp] theorem spansTotal_cons (d : List Octet) (ds : List (List Octet)) :
    spansTotal (d :: ds) = ((words d).map BitVec.toNat).sum + spansTotal ds := List.sum_cons

/-- Summing the first span is taking its words out of the total (R83). -/
theorem sumWords_add_spansTotal (init : Nat) (d : List Octet) (ds : List (List Octet)) :
    sumWords init d + spansTotal ds = init + spansTotal (d :: ds) := by
  rw [sumWords_eq, spansTotal_cons, Nat.add_assoc]

/-- The total does not depend on the order of the spans (R86). -/
theorem spansTotal_perm {ds es : List (List Octet)} (h : ds.Perm es) : spansTotal ds = spansTotal es :=
  (h.map _).sum_nat

/-- Cutting a span at an even place leaves the total (R85). -/
theorem spansTotal_append_of_even {a : List Octet} (b : List Octet) (h : a.length % 2 = 0) :
    spansTotal [a ++ b] = spansTotal [a, b] := by
  simp [words_append_of_even a b h]

/-- The three spans' sum of the source is their total (R110). -/
theorem sourceSum_eq (p h d : List Octet) : sourceSum p h d = spansTotal [p, h, d] := by
  simp [sourceSum, sumWords_eq, Nat.add_assoc]

/-- A word is at most 0xFFFF, so the words' number bounds their sum (R87). -/
theorem sum_words_le (d : List Octet) : ((words d).map BitVec.toNat).sum ≤ (words d).length * 0xFFFF := by
  have hword : ∀ n ∈ (words d).map BitVec.toNat, n ≤ 0xFFFF :=
    List.forall_mem_map.2 fun w _ => Nat.le_of_lt_succ w.isLt
  simpa using List.sum_le_card_nsmul _ _ hword

/-- The same bound for several spans (R87). -/
theorem spansTotal_le (ds : List (List Octet)) : spansTotal ds ≤ (ds.map fun d => (words d).length).sum * 0xFFFF := by
  induction ds with
  | nil => exact Nat.le_refl 0
  | cons d ds ih =>
    have hd := sum_words_le d
    rw [spansTotal_cons, List.map_cons, List.sum_cons]
    omega

/-- A datagram's three spans sum to at most 32774 words of all ones (R87). -/
theorem sourceSum_le {p h d : List Octet} (hp : p.length = 12) (hh : h.length = 8) (hd : d.length ≤ 65527) :
    sourceSum p h d ≤ 0x80057FFA := by
  have hle := spansTotal_le [p, h, d]
  simp only [List.map_cons, List.map_nil, List.sum_cons, List.sum_nil, words_length, hp, hh] at hle
  rw [sourceSum_eq]
  omega

/-- `n` words of all ones reach the bound of `spansTotal_le`. -/
theorem words_replicate_ones (n : Nat) : words (List.replicate (2 * n) 0xFF#8) = List.replicate n 0xFFFF#16 := by
  induction n with
  | zero => rfl
  | succ n ih =>
    rw [Nat.mul_succ, List.replicate_succ, List.replicate_succ, words_pair, ih, List.replicate_succ]
    rfl

end Sys2Proof.Machine
end

section
/-! PROOFS. CLR, LDACC and SUMW, one command at a time (R80 to R84). -/

namespace Sys2Proof.Machine

/-- Writing the value that ACC holds changes nothing. -/
theorem State.setAcc_of_eq {s : State} {v : Acc32} (h : s.acc = v) : s.setAcc v = s := by
  subst h
  rfl

/-- A faulted engine takes no step (R123). -/
theorem no_step_of_faulted {s : State} (he : s.status.err ≠ .none) : ¬ ∃ t, step s = .next t := by
  rw [step_of_faulted he]
  nofun

/-- Settles O17: `exec` of CLR is the write, and a faulted engine does not come to it. -/
theorem clrClearsTheAccumulatorOnly : Obligations.ClrClearsTheAccumulatorOnly := fun _ =>
  ⟨rfl, rfl, rfl, decode_clr, fun h => congrArg Host.Outcome.next (State.setAcc_of_eq h), no_step_of_faulted⟩

/-- Settles O18: `exec` of LDACC is the write; above 0xFFFFFFFF a non-zero word has no room. -/
theorem ldaccLoadsTheAccumulatorOnly : Obligations.LdaccLoadsTheAccumulatorOnly := by
  intro s imm
  refine ⟨rfl, rfl, rfl, rfl, fun t ht d hd => ?_⟩
  cases ht
  exact exec_sumw_of_overflows (lt_sumWords_of_ne_zero hd _)

/-- SUMW of an all-zero span changes nothing, whatever ACC is (R82). -/
theorem exec_sumw_of_zero {d : List Octet} (h : ∀ o ∈ d, o = 0x00#8) (s : State) : exec (.sumw d) s = .next s := by
  have hsum := sumWords_of_zero h s.acc.toNat
  have hacc : s.acc = BitVec.ofNat 32 (sumWords s.acc.toNat d) := by rw [hsum, BitVec.ofNat_toNat, BitVec.setWidth_eq]
  have hfits : sumWords s.acc.toNat d ≤ 0xFFFFFFFF := by rw [hsum]; exact Nat.le_of_lt_succ s.acc.isLt
  rw [exec_sumw_of_fits hfits, State.setAcc_of_eq hacc]

/-- The encoding of a SUMW with its LEN as quotient and remainder (R63). -/
theorem encode_sumw_of_le {d : List Octet} (h : d.length ≤ 65535) :
    encode (.sumw d) = 0x03#8 :: BitVec.ofNat 8 (d.length / 256) :: BitVec.ofNat 8 (d.length % 256) :: d := by
  refine encode_sumw_of_length ?_
  rw [be16_toNat, BitVec.toNat_ofNat, BitVec.toNat_ofNat]
  omega

/-- Settles O19: the two outcomes of SUMW, its octets, and the spans that add one padded word or nothing. -/
theorem sumwAddsTheSpansWords : Obligations.SumwAddsTheSpansWords := fun s _ =>
  ⟨exec_sumw_of_fits, exec_sumw_of_overflows, encode_sumw_of_le, rfl, exec_sumw_of_zero (List.forall_mem_nil _) s,
    fun o h => sumWords_concat_of_even _ o h, fun h => exec_sumw_of_zero h s⟩

/-- Some running sum inside a span is too large exactly when the sum at its end is (R84). -/
theorem exists_take_overflows_iff (init : Nat) (d : List Octet) :
    (∃ k, 0xFFFFFFFF < init + (((words d).take k).map BitVec.toNat).sum) ↔ 0xFFFFFFFF < sumWords init d := by
  rw [sumWords_eq]
  constructor
  · rintro ⟨k, hk⟩
    have hle := sum_take_words_le d k
    omega
  · intro h
    exact ⟨(words d).length, by rwa [List.take_length]⟩

/-- Settles O20: the overflow row of `StepRow`, and the sum that never falls. -/
theorem sumwOverflowTakesTheFault : Obligations.SumwOverflowTakesTheFault := by
  intro s o₁ o₂ d rest he hs hd
  refine ⟨fun ho => ?_, exists_take_overflows_iff _ d⟩
  have hrow := StepRow.sumwOverflows hs (hd.trans (be16_toNat o₁ o₂).symm) ho
  refine ⟨_, hrow.step_eq he, ?_⟩
  rw [State.consume_sumw hs]
  exact ⟨rfl, rfl, rfl, rfl, rfl, rfl⟩

end Sys2Proof.Machine
end

section
/-! PROOFS. Runs of the engine over a list of commands, one command at a time, and over SUMWs alone (R71, R85, R86). -/

namespace Sys2Proof.Machine

/-- The engine ends where it ends after its next step. -/
theorem runEngine_of_step {s t : State} (h : step s = .next t) : runEngine s = runEngine t := by
  have hend : ¬ ∃ u, step (engineSteps (t.avail + 1) s) = .next u := by
    rw [engineSteps_succ_of_step h]
    exact engineSteps_no_step_of_avail_le (Nat.le_refl _)
  rw [← engineSteps_eq_runEngine hend, engineSteps_succ_of_step h]
  rfl

/-- A faulted engine ends where it is, whatever is in its stream (R123). -/
theorem runEngine_of_faulted {s : State} (he : s.status.err ≠ .none) : runEngine s = s :=
  engineSteps_of_no_step (no_step_of_faulted he) _

/-- An engine without octets ends where it is (R71). -/
theorem runEngine_of_stream_nil {s : State} (hs : s.stream = []) : runEngine s = s := by
  rw [runEngine, State.avail, hs]
  rfl

/-- The octets that several SUMWs take (R61). -/
def sumwsLength (ds : List (List Octet)) : Nat := (ds.map fun d => (Instr.sumw d).length).sum

/-- It does not depend on their order. -/
theorem sumwsLength_perm {ds es : List (List Octet)} (h : ds.Perm es) : sumwsLength ds = sumwsLength es :=
  (h.map _).sum_nat

/-- The state after several SUMWs that all fit: the total is in ACC, and POS has counted their octets. -/
def State.afterSumws (ds : List (List Octet)) (s : State) : State :=
  (s.consume (sumwsLength ds)).setAcc (BitVec.ofNat 32 (s.acc.toNat + spansTotal ds))

/-- No SUMW, no change. -/
theorem State.afterSumws_nil (s : State) : s.afterSumws [] = s := by
  have hacc : BitVec.ofNat 32 s.acc.toNat = s.acc := by rw [BitVec.ofNat_toNat, BitVec.setWidth_eq]
  simp [State.afterSumws, sumwsLength, State.consume, State.setAcc, hacc]

/-- The first of several SUMWs leaves the rest's start (R82). -/
theorem State.afterSumws_cons {s : State} {d : List Octet} (ds : List (List Octet))
    (h : sumWords s.acc.toNat d ≤ 0xFFFFFFFF) :
    ((s.consume (Instr.sumw d).length).setAcc (BitVec.ofNat 32 (sumWords s.acc.toNat d))).afterSumws ds =
      s.afterSumws (d :: ds) := by
  have hacc : (BitVec.ofNat 32 (sumWords s.acc.toNat d)).toNat = sumWords s.acc.toNat d :=
    Nat.mod_eq_of_lt (Nat.lt_succ_of_le h)
  simp [State.afterSumws, hacc, sumWords_add_spansTotal, sumwsLength, State.consume, State.setAcc, Nat.add_assoc]

/-- The order of the SUMWs does not show in that state (R86). -/
theorem State.afterSumws_perm (s : State) {ds es : List (List Octet)} (h : ds.Perm es) :
    s.afterSumws ds = s.afterSumws es := by
  rw [State.afterSumws, State.afterSumws, spansTotal_perm h, sumwsLength_perm h]

/-- Where the engine ends once the host has appended SUMWs alone (R86). -/
def State.runSumws (ds : List (List Octet)) (s : State) : State := runEngine (s.append (encodeAll (ds.map .sumw)))

section
variable {s : State} (he : s.status.err = .none) (hs : s.stream = [])
include he hs

/-- The first of the commands that the host appended is consumed and executed; the others still wait (R71). -/
theorem step_append_encode {i : Instr} {t : State} (hi : i.wf = true) (hx : exec i (s.consume i.length) = .next t)
    (os : List Octet) : step (s.append (encode i ++ os)) = .next (t.append os) := by
  have hc : (s.append (encode i ++ os)).consume i.length = (s.consume i.length).append os := by
    simp [State.consume, State.append, hs, ← encode_length i]
  rw [step_of_none (s := s.append _) he, State.append_stream, hs, List.nil_append,
    decodeOfEncodeGivesTheCommand i os hi]
  simpa only [hc] using exec_append os hx

/-- A run of several commands goes on from the state after the first. -/
theorem runEngine_encodeAll_cons {i : Instr} {t : State} (hi : i.wf = true)
    (hx : exec i (s.consume i.length) = .next t) (is : List Instr) :
    runEngine (s.append (encodeAll (i :: is))) = runEngine (t.append (encodeAll is)) :=
  runEngine_of_step (step_append_encode he hs hi hx (encodeAll is))

/-- A run of one command ends in the state that its `exec` answers. -/
theorem runEngine_encodeAll_singleton {i : Instr} {t : State} (hi : i.wf = true)
    (hx : exec i (s.consume i.length) = .next t) : runEngine (s.append (encodeAll [i])) = t := by
  have hstream : t.stream = [] := by rw [(exec_pos_stream hx).2, State.consume_stream, hs, List.drop_nil]
  rw [runEngine_encodeAll_cons he hs hi hx]
  exact (congrArg runEngine t.append_nil).trans (runEngine_of_stream_nil hstream)

/-- SUMWs whose total fits all complete, and the run goes on behind them (R82). -/
theorem runEngine_sumws_of_fits {ds : List (List Octet)} (hlen : ∀ d ∈ ds, d.length ≤ 65535)
    (hfits : s.acc.toNat + spansTotal ds ≤ 0xFFFFFFFF) (is : List Instr) :
    runEngine (s.append (encodeAll (ds.map .sumw ++ is))) = runEngine ((s.afterSumws ds).append (encodeAll is)) := by
  induction ds generalizing s with
  | nil => rw [State.afterSumws_nil]; rfl
  | cons d ds ih =>
    obtain ⟨hd, hds⟩ := List.forall_mem_cons.1 hlen
    rw [← sumWords_add_spansTotal] at hfits
    have hsum : sumWords s.acc.toNat d ≤ 0xFFFFFFFF := by omega
    have hx := exec_sumw_of_fits (s := s.consume (Instr.sumw d).length) hsum
    rw [List.map_cons, List.cons_append, runEngine_encodeAll_cons he hs ((wf_sumw d).2 hd) hx,
      ← State.afterSumws_cons ds hsum]
    refine ih he (by simp [hs]) hds ?_
    simpa [Nat.mod_eq_of_lt (Nat.lt_succ_of_le hsum)] using hfits

/-- The same with nothing behind them: the run ends in that state. -/
theorem runSumws_of_fits {ds : List (List Octet)} (hlen : ∀ d ∈ ds, d.length ≤ 65535)
    (hfits : s.acc.toNat + spansTotal ds ≤ 0xFFFFFFFF) : s.runSumws ds = s.afterSumws ds := by
  have hstream : (s.afterSumws ds).stream = [] := by simp [State.afterSumws, hs]
  simpa [State.runSumws, encodeAll, runEngine_of_stream_nil hstream] using runEngine_sumws_of_fits he hs hlen hfits []

/-- A run of SUMWs goes on from the state after the first. -/
theorem runSumws_cons {d : List Octet} {t : State} (hd : d.length ≤ 65535)
    (hx : exec (.sumw d) (s.consume (Instr.sumw d).length) = .next t) (ds : List (List Octet)) :
    s.runSumws (d :: ds) = t.runSumws ds :=
  runEngine_encodeAll_cons he hs ((wf_sumw d).2 hd) hx _

/-- SUMWs whose total does not fit take the fault at one of them, and the run ends there (R84, R86). -/
theorem runSumws_of_overflows {ds : List (List Octet)} (hlen : ∀ d ∈ ds, d.length ≤ 65535)
    (ho : 0xFFFFFFFF < s.acc.toNat + spansTotal ds) :
    (s.runSumws ds).status = s.status.setErr .accOverflow ∧ (s.runSumws ds).fop = 0x03#8 := by
  induction ds generalizing s with
  | nil => exact absurd ho (Nat.not_lt.2 (Nat.le_of_lt_succ s.acc.isLt))
  | cons d ds ih =>
    obtain ⟨hd, hds⟩ := List.forall_mem_cons.1 hlen
    rcases Nat.lt_or_ge 0xFFFFFFFF (sumWords s.acc.toNat d) with hover | hsum
    · have hx := exec_sumw_of_overflows (s := s.consume (Instr.sumw d).length) hover
      rw [runSumws_cons he hs hd hx, State.runSumws, runEngine_of_faulted (by simp)]
      exact ⟨rfl, rfl⟩
    · have hx := exec_sumw_of_fits (s := s.consume (Instr.sumw d).length) hsum
      rw [runSumws_cons he hs hd hx]
      refine ih he (by simp [hs]) hds ?_
      simpa [Nat.mod_eq_of_lt (Nat.lt_succ_of_le hsum), sumWords_add_spansTotal] using ho

/-- Runs of SUMWs with the same total take the same fault, and leave the same ACC where they take none (R85, R86). -/
theorem runSumws_agree {ds es : List (List Octet)} (hds : ∀ d ∈ ds, d.length ≤ 65535)
    (hes : ∀ d ∈ es, d.length ≤ 65535) (htotal : spansTotal ds = spansTotal es) :
    (s.runSumws ds).status = (s.runSumws es).status ∧ (s.runSumws ds).fop = (s.runSumws es).fop ∧
    ((s.runSumws ds).status.err = .none → (s.runSumws ds).acc = (s.runSumws es).acc) := by
  rcases Nat.lt_or_ge 0xFFFFFFFF (s.acc.toNat + spansTotal ds) with ho | hfits
  · obtain ⟨hst₁, hfop₁⟩ := runSumws_of_overflows he hs hds ho
    obtain ⟨hst₂, hfop₂⟩ := runSumws_of_overflows he hs hes (htotal ▸ ho)
    exact ⟨hst₁.trans hst₂.symm, hfop₁.trans hfop₂.symm,
      fun h => nomatch (congrArg Status.err hst₁).symm.trans h⟩
  · rw [runSumws_of_fits he hs hds hfits, runSumws_of_fits he hs hes (htotal ▸ hfits)]
    exact ⟨rfl, rfl, fun _ => by rw [State.afterSumws, htotal]; rfl⟩

/-- CLR, SUMWs whose words' total fits and one last command: the SUMWs start from 0 and the last command's `exec` ends
the run. -/
theorem runEngine_clr_sumws_last {ds : List (List Octet)} (hlen : ∀ d ∈ ds, d.length ≤ 65535)
    (hfits : spansTotal ds ≤ 0xFFFFFFFF) {i : Instr} (hi : i.wf = true) {t : State}
    (hx : exec i ((((s.consume 1).setAcc 0).afterSumws ds).consume i.length) = .next t) :
    runEngine (s.append (encodeAll (.clr :: (ds.map .sumw ++ [i])))) = t := by
  have hclr : ((s.consume 1).setAcc 0).stream = [] := by simp [hs]
  have hsumws : (((s.consume 1).setAcc 0).afterSumws ds).stream = [] := by simp [State.afterSumws, hs]
  calc runEngine (s.append (encodeAll (.clr :: (ds.map .sumw ++ [i]))))
      = runEngine (((s.consume 1).setAcc 0).append (encodeAll (ds.map .sumw ++ [i]))) :=
        runEngine_encodeAll_cons he hs rfl rfl _
    _ = runEngine ((((s.consume 1).setAcc 0).afterSumws ds).append (encodeAll [i])) :=
        runEngine_sumws_of_fits (s := (s.consume 1).setAcc 0) he hclr hlen ((Nat.zero_add _).trans_le hfits) [i]
    _ = t := runEngine_encodeAll_singleton (s := ((s.consume 1).setAcc 0).afterSumws ds) he hsumws hi hx

end

/-- Settles O25: the cut leaves the total, and the total decides what a run of SUMWs comes to. -/
theorem evenSplitSameFaultSameAccWithoutFault : Obligations.EvenSplitSameFaultSameAccWithoutFault := by
  intro s a b he hs ha hlen
  have hone : ∀ d ∈ [a ++ b], d.length ≤ 65535 := by simpa using hlen
  have htwo : ∀ d ∈ [a, b], d.length ≤ 65535 := by
    rw [List.length_append] at hlen
    simp only [List.forall_mem_cons, List.not_mem_nil, false_imp_iff, implies_true, and_true]
    omega
  exact runSumws_agree he hs hone htwo (spansTotal_append_of_even b ha)

/-- Refutes O26: with ACC 0xFFFF0000, `SUMW [FF FF 00 01]` faults with ACC as it was, while `SUMW [FF FF]; SUMW [00 01]`
faults at its second command with ACC 0xFFFFFFFF. -/
theorem not_evenSplitLeavesTheSameAccAlways : ¬ Obligations.EvenSplitLeavesTheSameAccAlways := by
  intro h
  obtain ⟨hacc, -⟩ := h { State.reset with acc := 0xFFFF0000#32 } [0xFF#8, 0xFF#8] [0x00#8, 0x01#8] rfl rfl rfl
    (by decide)
  exact absurd hacc (by decide)

/-- Settles O27: neither the total nor the number of octets depends on the order. -/
theorem sumwOrderSameOverflowSameAccWithoutFault : Obligations.SumwOrderSameOverflowSameAccWithoutFault := by
  intro s ds es he hs hds hperm
  have hes : ∀ d ∈ es, d.length ≤ 65535 := fun d hd => hds d (hperm.mem_iff.2 hd)
  have htotal := spansTotal_perm hperm
  rcases Nat.lt_or_ge 0xFFFFFFFF (s.acc.toNat + spansTotal ds) with ho | hfits
  · obtain ⟨ht, -⟩ := runSumws_of_overflows he hs hds ho
    obtain ⟨hu, -⟩ := runSumws_of_overflows he hs hes (htotal ▸ ho)
    have herr := congrArg Status.err ht
    have hfault : (s.runSumws ds).status.err ≠ .none := by rw [herr]; nofun
    exact ⟨.inr herr, ht.trans hu.symm, fun h => absurd h hfault, iff_of_false hfault (Nat.not_le.2 ho)⟩
  · have ht := runSumws_of_fits he hs hds hfits
    have hu := runSumws_of_fits he hs hes (htotal ▸ hfits)
    have htu := ht.trans ((s.afterSumws_perm hperm).trans hu.symm)
    have herr : (s.runSumws ds).status.err = .none := by rw [ht]; exact he
    exact ⟨.inl herr, congrArg State.status htu, fun _ => htu, iff_of_true herr hfits⟩

end Sys2Proof.Machine
end

section
/-! PROOFS. How many words a run of SUMWs can take without an overflow (R87). -/

namespace Sys2Proof.Machine

/-- Up to 65537 words fit from ACC 0, whatever their values (R87). -/
theorem runSumws_err_of_words_le {s : State} {ds : List (List Octet)} (he : s.status.err = .none)
    (hs : s.stream = []) (hacc : s.acc = 0) (hlen : ∀ d ∈ ds, d.length ≤ 65535)
    (hwords : (ds.map fun d => (words d).length).sum ≤ 65537) : (s.runSumws ds).status.err = .none := by
  have hle := spansTotal_le ds
  have hzero : s.acc.toNat = 0 := hacc ▸ rfl
  have hfits : s.acc.toNat + spansTotal ds ≤ 0xFFFFFFFF := by omega
  rw [runSumws_of_fits he hs hlen hfits]
  exact he

/-- Three spans of 21846 words of all ones: 65538 words. -/
def maximalSpans : List (List Octet) := List.replicate 3 (List.replicate (2 * 21846) 0xFF#8)

/-- They are one word more than fits from ACC 0. -/
theorem spansTotal_maximalSpans : spansTotal maximalSpans = 65538 * 0xFFFF := by
  rw [spansTotal, maximalSpans, List.map_replicate, words_replicate_ones, List.map_replicate, List.sum_replicate_nat,
    List.sum_replicate_nat]
  rfl

/-- Some 65538 words overflow from reset (R87). -/
theorem exists_sumws_overflow : ∃ ds : List (List Octet), (∀ d ∈ ds, d.length ≤ 65535) ∧
    (ds.map (fun d => (words d).length)).sum = 65538 ∧
    (State.reset.runSumws ds).status.err = .accOverflow := by
  have hlen : ∀ d ∈ maximalSpans, d.length ≤ 65535 := by
    intro d hd
    rw [List.eq_of_mem_replicate hd, List.length_replicate]
    omega
  refine ⟨maximalSpans, hlen, ?_, ?_⟩
  · rw [maximalSpans, List.map_replicate, words_length, List.length_replicate, List.sum_replicate_nat]
  · have ho : 0xFFFFFFFF < State.reset.acc.toNat + spansTotal maximalSpans := by
      rw [spansTotal_maximalSpans]
      decide
    rw [(runSumws_of_overflows rfl rfl hlen ho).1]
    rfl

/-- CLR, a datagram's three spans and a last command that leaves ERR end without a fault (R69, R87). -/
theorem runEngine_datagram_err {s : State} {p h d : List Octet} (he : s.status.err = .none) (hs : s.stream = [])
    (hp : p.length = 12) (hh : h.length = 8) (hd : d.length ≤ 65527) {i : Instr} (hi : i = .compute ∨ i = .verify) :
    (runEngine (s.append (encodeAll (.clr :: ([p, h, d].map .sumw ++ [i]))))).status.err = .none := by
  have hlen : ∀ e ∈ [p, h, d], e.length ≤ 65535 := by
    simp only [List.forall_mem_cons, List.not_mem_nil, false_imp_iff, implies_true, and_true]
    omega
  have hfits : spansTotal [p, h, d] ≤ 0xFFFFFFFF :=
    (sourceSum_eq p h d).symm.trans_le ((sourceSum_le hp hh hd).trans (by decide))
  rcases hi with rfl | rfl
  · rw [runEngine_clr_sumws_last he hs hlen hfits rfl rfl]; exact he
  · rw [runEngine_clr_sumws_last he hs hlen hfits rfl rfl]; exact he

/-- Settles O28: the words' number bounds their sum; words of all ones reach the bound. -/
theorem overflowBound : Obligations.OverflowBound :=
  ⟨fun _ _ => runSumws_err_of_words_le, exists_sumws_overflow, fun _ _ _ _ he hs hp hh hd =>
    ⟨sourceSum_le hp hh hd, runEngine_datagram_err he hs hp hh hd (.inl rfl),
      runEngine_datagram_err he hs hp hh hd (.inr rfl)⟩⟩

end Sys2Proof.Machine
end

section
/-! PROOFS. The carry fold as a loop and as a residue, and the finishing function (R100 to R102). -/

namespace Sys2Proof.Machine

/-- The loop comes to one result, after one number of passes (R100). -/
theorem FoldRuns.unique {n k out k' out' : Nat} (h : FoldRuns n k out) (h' : FoldRuns n k' out') :
    k' = k ∧ out' = out := by
  induction h generalizing k' with
  | done sum hle =>
    cases h' with
    | done => exact ⟨rfl, rfl⟩
    | pass _ _ _ hlt => exact absurd hlt hle
  | pass sum k out hlt _ ih =>
    cases h' with
    | done _ hle => exact absurd hlt hle
    | pass _ _ _ _ rest =>
      obtain ⟨rfl, rfl⟩ := ih rest
      exact ⟨rfl, rfl⟩

/-- What the loop keeps to its end: a result of 16 bits, of the same residue, and zero only from zero (R101). -/
theorem FoldRuns.residue {n k out : Nat} (h : FoldRuns n k out) :
    out ≤ 0xFFFF ∧ out % 0xFFFF = n % 0xFFFF ∧ (out = 0 ↔ n = 0) := by
  induction h with
  | done sum hle => exact ⟨Nat.le_of_not_lt hle, rfl, Iff.rfl⟩
  | pass sum k out hlt _ ih => omega

/-- The first pass of a 32-bit sum leaves at most 0x1FFFE (R101). -/
theorem foldStep_le_of_acc32 {n : Nat} (h : n ≤ 0xFFFFFFFF) : foldStep n ≤ 0x1FFFE := by
  rw [foldStep_eq]
  omega

/-- From there one more pass leaves 16 bits (R101). -/
theorem foldStep_le_of_second {n : Nat} (hlt : 0xFFFF < n) (hle : n ≤ 0x1FFFE) : foldStep n ≤ 0xFFFF := by
  rw [foldStep_eq]
  omega

/-- One more pass of the loop, in the model's words for it. -/
theorem FoldRuns.pass_foldStep {n k out : Nat} (hlt : 0xFFFF < n) (h : FoldRuns (foldStep n) k out) :
    FoldRuns n (k + 1) out := by
  rw [foldStep_eq] at h
  exact .pass n k out hlt h

/-- `fold` is what the loop comes to, after at most two passes (R101). -/
theorem foldRuns_fold (acc : Acc32) : ∃ k ≤ 2, FoldRuns acc.toNat k (fold acc).toNat := by
  rw [fold_toNat]
  split_ifs with h₀ h₁
  · exact ⟨0, by decide, .done _ (Nat.not_lt.2 h₀)⟩
  · exact ⟨1, by decide, .pass_foldStep (Nat.lt_of_not_le h₀) (.done _ (Nat.not_lt.2 h₁))⟩
  · have hlt₁ := Nat.lt_of_not_le h₁
    have hle := foldStep_le_of_second hlt₁ (foldStep_le_of_acc32 (Nat.le_of_lt_succ acc.isLt))
    exact ⟨2, by decide, .pass_foldStep (Nat.lt_of_not_le h₀) (.pass_foldStep hlt₁ (.done _ (Nat.not_lt.2 hle)))⟩

/-- Settles O29: the loop reaches `fold`, and reaches one result only. -/
theorem foldIsTheLoopRunToItsEnd : Obligations.FoldIsTheLoopRunToItsEnd := by
  intro acc
  obtain ⟨k, -, hk⟩ := foldRuns_fold acc
  exact ⟨k, hk, fun _ _ h => hk.unique h⟩

/-- What the loop keeps, of `fold` itself. -/
theorem fold_residue (acc : Acc32) : (fold acc).toNat ≤ 0xFFFF ∧
    (fold acc).toNat % 0xFFFF = acc.toNat % 0xFFFF ∧ ((fold acc).toNat = 0 ↔ acc.toNat = 0) := by
  obtain ⟨_, -, h⟩ := foldRuns_fold acc
  exact h.residue

/-- `fold` is 0 only for 0 (R101). -/
theorem fold_eq_zero_iff (acc : Acc32) : fold acc = 0 ↔ acc = 0 := by
  obtain ⟨-, -, hzero⟩ := fold_residue acc
  rw [← BitVec.toNat_inj, ← BitVec.toNat_inj]
  exact hzero

/-- `fold` is all ones exactly for the positive multiples of 0xFFFF (R101). -/
theorem fold_eq_ones_iff (acc : Acc32) : fold acc = 0xFFFF#16 ↔ 0 < acc.toNat ∧ acc.toNat % 0xFFFF = 0 := by
  obtain ⟨hle, hmod, hzero⟩ := fold_residue acc
  have hones : fold acc = 0xFFFF#16 ↔ (fold acc).toNat = 0xFFFF := BitVec.toNat_inj.symm
  rw [hones]
  omega

/-- Settles O30: the passes by `foldStep_eq`, the bound of two by uniqueness, the values by `fold_residue`. -/
theorem foldProperties : Obligations.FoldProperties := by
  refine ⟨fun n => ⟨?pass, foldStep_le_of_acc32, foldStep_le_of_second, ?positive⟩, ?passes, ?two,
    fold_eq_zero_iff, ?value, fold_eq_ones_iff⟩
  case pass =>
    rw [foldStep_eq, Nat.shiftRight_eq_div_pow]
    omega
  case positive =>
    rw [foldStep_eq]
    omega
  case passes =>
    intro acc k out h
    obtain ⟨j, hj, hrun⟩ := foldRuns_fold acc
    obtain ⟨rfl, -⟩ := hrun.unique h
    exact hj
  case two =>
    exact .pass _ _ _ (by decide) (.pass _ _ _ (by decide) (.done _ (by decide)))
  case value =>
    intro acc hne
    obtain ⟨hle, hmod, hzero⟩ := fold_residue acc
    have hpos : acc.toNat ≠ 0 := fun h => hne (BitVec.eq_of_toNat_eq h)
    omega

/-- Settles O31: the two cases of `finish_toNat`. -/
theorem finishComplementsAndMapsZero : Obligations.FinishComplementsAndMapsZero := by
  intro f
  rw [finish_toNat]
  split_ifs <;> omega

/-- `finish` is all ones exactly for 0 and for all ones (R105). -/
theorem finish_eq_ones_iff (f : Word) : finish f = 0xFFFF#16 ↔ f = 0x0000#16 ∨ f = 0xFFFF#16 := by
  have hf := f.isLt
  rw [← BitVec.toNat_inj, ← BitVec.toNat_inj, ← BitVec.toNat_inj, finish_toNat]
  simp only [BitVec.toNat_ofNat]
  split_ifs <;> omega

/-- Where `finish` is not all ones it is the one's complement, which is neither 0 nor all ones (R105). -/
theorem finish_toNat_of_ne_ones {f : Word} (h : finish f ≠ 0xFFFF#16) :
    (finish f).toNat = 0xFFFF - f.toNat ∧ 1 ≤ (finish f).toNat ∧ (finish f).toNat ≤ 0xFFFE := by
  have hne : (finish f).toNat ≠ 0xFFFF := fun e => h (BitVec.eq_of_toNat_eq e)
  have hf := f.isLt
  rw [finish_toNat] at hne ⊢
  split_ifs at hne ⊢ with hones
  · exact absurd rfl hne
  · omega

/-- Added to the sum that it finishes, a checksum makes a multiple of 0xFFFF (R109). -/
theorem add_finish_fold_mod (acc : Acc32) : (acc.toNat + (finish (fold acc)).toNat) % 0xFFFF = 0 := by
  obtain ⟨hle, hmod, -⟩ := fold_residue acc
  rw [finish_toNat]
  split_ifs <;> omega

end Sys2Proof.Machine
end

section
/-! PROOFS. COMPUTE and VERIFY, one command at a time (R103 to R107), and the checksum's octets (R108). -/

namespace Sys2Proof.Machine

/-- A 32-bit sum finishes as all ones exactly where it is 0 or a positive multiple of 0xFFFF (R105). -/
theorem finish_fold_eq_ones_iff (acc : Acc32) :
    finish (fold acc) = 0xFFFF#16 ↔ acc = 0 ∨ (0 < acc.toNat ∧ acc.toNat % 0xFFFF = 0) := by
  rw [finish_eq_ones_iff, ← fold_eq_ones_iff, ← fold_eq_zero_iff]
  rfl

/-- Settles O21: `exec` of COMPUTE is the two writes, and the second COMPUTE writes what is there. -/
theorem computeWritesResultAndRv : Obligations.ComputeWritesResultAndRv := by
  refine fun s => ⟨rfl, rfl, rfl, decode_compute, ?ones, rfl, ?again⟩
  case ones =>
    rw [finish_eq_ones_iff]
    rintro (h | h | h)
    · exact .inl ((fold_eq_zero_iff _).2 h)
    · exact .inr h
    · exact .inr (by rw [h]; rfl)
  case again =>
    intro t h
    cases h
    rfl

/-- Settles O22: `exec` of VERIFY is the two writes of the verdict. -/
theorem verifyWritesVokAndVv : Obligations.VerifyWritesVokAndVv := fun s =>
  ⟨by rw [← verdict_eq]; rfl, rfl, rfl, decode_verify, by decide, rfl, rfl, rfl, by decide⟩

/-- Settles O32: COMPUTE's RESULT is `finish` of a fold. -/
theorem computedResultIsNeverZero : Obligations.ComputedResultIsNeverZero := fun _ =>
  ⟨_, rfl, finish_ne_zero _, finish_eq_ones_iff _, finish_fold_eq_ones_iff _, finish_toNat_of_ne_ones⟩

/-- The verdict says that the sum is a positive multiple of 0xFFFF (R106). -/
theorem verdict_iff (acc : Acc32) : verdict acc = true ↔ 0 < acc.toNat ∧ acc.toNat % 0xFFFF = 0 := by
  rw [verdict_eq, decide_eq_true_iff, fold_eq_ones_iff]

/-- Settles O33: VERIFY writes the verdict. -/
theorem verdictIsAPositiveMultiple : Obligations.VerdictIsAPositiveMultiple := fun s =>
  ⟨_, rfl, rfl, verdict_iff s.acc⟩

/-- Absent is zero (R107). -/
theorem isAbsent_iff (v : Word) : isAbsent v = true ↔ v = 0x0000#16 := beq_iff_eq

/-- A value's two octets are zero exactly when it is absent (R107, R108). -/
theorem octets16_eq_zero_iff (v : Word) : octets16 v = [0x00#8, 0x00#8] ↔ isAbsent v = true := by
  rw [isAbsent_iff]
  constructor
  · intro h
    obtain ⟨hhi, hlo⟩ : v.extractLsb' 8 8 = 0x00#8 ∧ v.extractLsb' 0 8 = 0x00#8 := by simpa [octets16] using h
    rw [← be16_extract v, hhi, hlo]
    rfl
  · rintro rfl
    rfl

/-- The host issues VERIFY3 exactly when the header's last two octets are not both zero (R107). -/
theorem hostVerify_headerSpan (p d : List Octet) (sp dp len v : Word) :
    hostVerify p (headerSpan sp dp len v) d =
      if isAbsent v = true then none else some (verify3 p (headerSpan sp dp len v) d) := by
  have hzero : (some (v.extractLsb' 8 8) = some 0x00#8 ∧ some (v.extractLsb' 0 8) = some 0x00#8) ↔
      isAbsent v = true := by
    rw [← octets16_eq_zero_iff]
    simp [octets16]
  exact if_congr hzero rfl rfl

/-- Settles O49: the header's last two octets are the checksum's, and COMPUTE never answers 0. -/
theorem absentChecksumConvention : Obligations.AbsentChecksumConvention := by
  refine ⟨isAbsent_iff, fun sp dp len v => (octets16_eq_zero_iff v).symm, fun p d sp dp len v => ?_, fun s => ?_⟩
  · rw [hostVerify_headerSpan]
    exact ⟨fun h => if_pos h, fun h => if_neg (Bool.not_eq_true _ ▸ h)⟩
  · exact ⟨_, rfl, Bool.eq_false_iff.2 (mt (isAbsent_iff _).1 (finish_ne_zero _))⟩

/-- A header of 8 octets ends with its checksum field (R54). -/
theorem withChecksumField_eq {h : List Octet} (hh : h.length = 8) (c : Word) :
    withChecksumField h c = h.take 6 ++ octets16 c := by
  rw [withChecksumField, List.drop_of_length_le hh.le, List.append_nil]

/-- The octets before the field are six. -/
theorem length_take_six {h : List Octet} (hh : h.length = 8) : (h.take 6).length = 6 := by
  rw [List.length_take, hh]
  rfl

/-- Writing the field leaves the header's length. -/
theorem withChecksumField_length {h : List Octet} (hh : h.length = 8) (c : Word) :
    (withChecksumField h c).length = 8 := by
  rw [withChecksumField_eq hh, List.length_append, length_take_six hh]
  rfl

/-- Settles O50: the octets 4 and 5 of the window, and the field behind the header's first six octets. -/
theorem checksumSerialization : Obligations.ChecksumSerialization := by
  refine ⟨fun v => rfl, fun s => ⟨_, _, rfl, rfl, rfl⟩, fun h c hh => ⟨withChecksumField_length hh c, ?_⟩⟩
  rw [withChecksumField_eq hh]
  exact ⟨List.drop_left' (length_take_six hh), List.take_left' (length_take_six hh)⟩

end Sys2Proof.Machine
end

section
/-! PROOFS. The same commands give the same results (R111). -/

namespace Sys2Proof.Machine

/-- One command on two states that agree on ACC and ERR: they agree on both again, on RESULT where it is COMPUTE or they did
before, and on VOK where it is VERIFY or they did before. -/
theorem exec_agree {i : Instr} {s s' t t' : State} (ha : s.acc = s'.acc) (he : s.status.err = s'.status.err)
    (h : exec i s = .next t) (h' : exec i s' = .next t') :
    t.acc = t'.acc ∧ t.status.err = t'.status.err ∧
    (i = .compute ∨ s.result = s'.result → t.result = t'.result) ∧
    (i = .verify ∨ s.status.vok = s'.status.vok → t.status.vok = t'.status.vok) := by
  cases i with
  | clr => cases h; cases h'; simp [he]
  | ldacc imm => cases h; cases h'; simp [he]
  | sumw d =>
    rcases Nat.lt_or_ge 0xFFFFFFFF (sumWords s.acc.toNat d) with ho | hf
    · cases h.symm.trans (exec_sumw_of_overflows ho)
      cases h'.symm.trans (exec_sumw_of_overflows (ha ▸ ho))
      simp [ha]
    · cases h.symm.trans (exec_sumw_of_fits hf)
      cases h'.symm.trans (exec_sumw_of_fits (ha ▸ hf))
      simp [ha, he]
  | compute => cases h; cases h'; simp [ha, he]
  | verify => cases h; cases h'; simp [ha, he]

/-- A command leaves an empty stream empty. -/
theorem stream_nil_of_exec_consume {i : Instr} {n : Nat} {s t : State} (hs : s.stream = [])
    (h : exec i (s.consume n) = .next t) : t.stream = [] := by
  obtain ⟨-, hstream⟩ := exec_pos_stream h
  rw [hstream, State.consume_stream, hs, List.drop_nil]

/-- The agreement of `exec_agree` for a run of commands, whose results agree where it ends without a fault (R111). -/
theorem runEngine_encodeAll_agree {s s' : State} {is : List Instr} (he : s.status.err = .none)
    (he' : s'.status.err = .none) (hs : s.stream = []) (hs' : s'.stream = []) (ha : s.acc = s'.acc)
    (hwf : ∀ i ∈ is, i.wf = true) :
    let t := runEngine (s.append (encodeAll is))
    let t' := runEngine (s'.append (encodeAll is))
    t.acc = t'.acc ∧ t.status.err = t'.status.err ∧
    (t.status.err = .none → .compute ∈ is ∨ s.result = s'.result → t.result = t'.result) ∧
    (t.status.err = .none → .verify ∈ is ∨ s.status.vok = s'.status.vok → t.status.vok = t'.status.vok) := by
  induction is generalizing s s' with
  | nil =>
    simp only [encodeAll, State.append_nil, runEngine_of_stream_nil hs, runEngine_of_stream_nil hs']
    simp [ha, he, he']
  | cons i is ih =>
    obtain ⟨hi, his⟩ := List.forall_mem_cons.1 hwf
    obtain ⟨u, hx⟩ := exec_completes i (s.consume i.length)
    obtain ⟨u', hx'⟩ := exec_completes i (s'.consume i.length)
    obtain ⟨hacc, herr, hres, hvok⟩ := exec_agree (s := s.consume i.length) (s' := s'.consume i.length) ha
      (he.trans he'.symm) hx hx'
    rw [runEngine_encodeAll_cons he hs hi hx, runEngine_encodeAll_cons he' hs' hi hx']
    by_cases hu : u.status.err = .none
    · obtain ⟨hacc', herr', hres', hvok'⟩ := ih hu (herr.symm.trans hu) (stream_nil_of_exec_consume hs hx)
        (stream_nil_of_exec_consume hs' hx') hacc his
      refine ⟨hacc', herr', fun ht hc => hres' ht ?_, fun ht hv => hvok' ht ?_⟩
      · rw [List.mem_cons, eq_comm, or_right_comm] at hc
        exact hc.symm.imp_right hres
      · rw [List.mem_cons, eq_comm, or_right_comm] at hv
        exact hv.symm.imp_right hvok
    · have hu' : u'.status.err ≠ .none := herr ▸ hu
      rw [runEngine_of_faulted (s := u.append _) hu, runEngine_of_faulted (s := u'.append _) hu']
      exact ⟨hacc, herr, fun h => absurd h hu, fun h => absurd h hu⟩

/-- Settles O41: the two runs agree, and a repeated COMPUTE writes what is there. -/
theorem sameCommandsSameResults : Obligations.SameCommandsSameResults := by
  refine ⟨fun s s' is he he' hs hs' ha hwf => ?_, fun s => ⟨_, rfl, rfl, rfl⟩⟩
  obtain ⟨hacc, herr, hres, hvok⟩ := runEngine_encodeAll_agree he he' hs hs' ha hwf
  exact ⟨hacc, herr, fun ht hc => hres ht (.inl hc), fun ht hv => hvok ht (.inl hv)⟩

end Sys2Proof.Machine
end

section
/-! PROOFS. The pseudo-commands against the source's operations (R110), and a datagram that carries its checksum (R109). -/

namespace Sys2Proof.Machine

/-- An engine that has taken some steps ends, with octets appended, where it ends with them from the start (R49). -/
theorem runEngine_engineSteps_append (n : Nat) (s : State) (os : List Octet) :
    runEngine ((engineSteps n s).append os) = runEngine (s.append os) := by
  induction n generalizing s with
  | zero => rfl
  | succ n ih =>
    by_cases h : ∃ t, step s = .next t
    · obtain ⟨t, h⟩ := h
      rw [engineSteps_succ_of_step h, ih, runEngine_of_step (step_append os h)]
    · rw [engineSteps_of_no_step h]

/-- The octets of two lists of commands, one behind the other (R60). -/
theorem encodeAll_append (is js : List Instr) : encodeAll (is ++ js) = encodeAll is ++ encodeAll js := by
  induction is with
  | nil => rfl
  | cons i is ih => rw [List.cons_append, encodeAll, ih, encodeAll, List.append_assoc]

section
variable {s : State} (he : s.status.err = .none) (hs : s.stream = [])
include he hs

/-- CLR and SUMWs whose total does not fit end in the fault, whatever commands are behind them (R84). -/
theorem runEngine_clr_sumws_of_overflows {ds : List (List Octet)} (hlen : ∀ d ∈ ds, d.length ≤ 65535)
    (ho : 0xFFFFFFFF < spansTotal ds) (is : List Instr) :
    (runEngine (s.append (encodeAll (.clr :: (ds.map .sumw ++ is))))).status.err = .accOverflow := by
  have hclr : ((s.consume 1).setAcc 0).stream = [] := by simp [hs]
  obtain ⟨hst, -⟩ := runSumws_of_overflows (s := (s.consume 1).setAcc 0) he hclr hlen ((Nat.zero_add _).symm ▸ ho)
  have herr : (((s.consume 1).setAcc 0).runSumws ds).status.err = .accOverflow := congrArg Status.err hst
  have hrun : runEngine (s.append (encodeAll (.clr :: (ds.map .sumw ++ is)))) =
      (((s.consume 1).setAcc 0).runSumws ds).append (encodeAll is) := by
    rw [runEngine_encodeAll_cons he hs rfl rfl, encodeAll_append, ← State.append_append,
      ← runEngine_engineSteps_append]
    exact runEngine_of_faulted (fun h => nomatch herr.symm.trans h)
  rw [hrun]
  exact herr

/-- SUMWI whose sum fits gives the source's `sumWords` (R110). -/
theorem runEngine_sumwi_of_fits {d : List Octet} (hd : d.length ≤ 65535) {init : Acc32}
    (hfits : sumWords init.toNat d ≤ 0xFFFFFFFF) :
    let t := runEngine (s.append (encodeAll (sumwi init d)))
    t.endsSuccessfully = true ∧ t.acc.toNat = sumWords init.toNat d := by
  intro t
  have hstream : ((s.consume 5).setAcc init).stream = [] := by simp [hs]
  have ht : t = _ := (runEngine_encodeAll_cons he hs (i := .ldacc init) rfl rfl [.sumw d]).trans
    (runEngine_encodeAll_singleton (s := (s.consume 5).setAcc init) he hstream ((wf_sumw d).2 hd)
      (exec_sumw_of_fits hfits))
  rw [ht, State.endsSuccessfully_iff]
  exact ⟨⟨he, by simp [hs]⟩, Nat.mod_eq_of_lt (Nat.lt_succ_of_le hfits)⟩

variable {p h d : List Octet} (hp : p.length ≤ 65535) (hh : h.length ≤ 65535) (hd : d.length ≤ 65535)
include hp hh hd

/-- The three spans of a pseudo-command that ends without a fault have a sum that fits (R84, R110). -/
theorem sourceSum_le_of_err {is : List Instr}
    (ht : (runEngine (s.append (encodeAll (.clr :: ([p, h, d].map .sumw ++ is))))).status.err = .none) :
    sourceSum p h d ≤ 0xFFFFFFFF := by
  by_contra ho
  rw [sourceSum_eq, Nat.not_le] at ho
  have hlen : ∀ e ∈ [p, h, d], e.length ≤ 65535 := by simp [hp, hh, hd]
  exact nomatch ht.symm.trans (runEngine_clr_sumws_of_overflows he hs hlen ho is)

/-- CLR, three spans whose sum fits and a last command: it executes with the source's sum in ACC, and ends the run. -/
theorem runEngine_clr_spans_last (hfits : sourceSum p h d ≤ 0xFFFFFFFF) {i : Instr} (hi : i.wf = true) :
    ∃ u : State, u.acc = BitVec.ofNat 32 (sourceSum p h d) ∧ u.status.err = .none ∧ u.stream = [] ∧
      ∀ t, exec i u = .next t → runEngine (s.append (encodeAll (.clr :: ([p, h, d].map .sumw ++ [i])))) = t := by
  have hlen : ∀ e ∈ [p, h, d], e.length ≤ 65535 := by simp [hp, hh, hd]
  rw [sourceSum_eq] at hfits ⊢
  refine ⟨(((s.consume 1).setAcc 0).afterSumws [p, h, d]).consume i.length, ?_, he, ?_,
    fun _ => runEngine_clr_sumws_last he hs hlen hfits hi⟩
  · simp [State.afterSumws]
  · simp [State.afterSumws, hs]

/-- CSUM3 whose sum fits gives the source's `compute` (R110). -/
theorem runEngine_csum3_of_fits (hfits : sourceSum p h d ≤ 0xFFFFFFFF) :
    let t := runEngine (s.append (encodeAll (csum3 p h d)))
    t.endsSuccessfully = true ∧ t.result = sourceCompute p h d ∧ t.status.rv = true := by
  intro t
  obtain ⟨u, hacc, herr, hstream, hrun⟩ := runEngine_clr_spans_last he hs hp hh hd hfits (i := .compute) rfl
  have ht : t = (u.setResult (finish (fold u.acc))).mapStatus Status.setRv := hrun _ rfl
  rw [ht, State.endsSuccessfully_iff]
  exact ⟨⟨herr, hstream⟩, congrArg (finish ∘ fold) hacc, rfl⟩

/-- VERIFY3 whose sum fits gives the source's `verify` (R110). -/
theorem runEngine_verify3_of_fits (hfits : sourceSum p h d ≤ 0xFFFFFFFF) :
    let t := runEngine (s.append (encodeAll (verify3 p h d)))
    t.endsSuccessfully = true ∧ t.status.vok = sourceVerify p h d ∧ t.status.vv = true := by
  intro t
  obtain ⟨u, hacc, herr, hstream, hrun⟩ := runEngine_clr_spans_last he hs hp hh hd hfits (i := .verify) rfl
  have ht : t = u.mapStatus (Status.setVerdict (verdict u.acc)) := hrun _ rfl
  rw [ht, State.endsSuccessfully_iff]
  exact ⟨⟨herr, hstream⟩, congrArg verdict hacc, rfl⟩

end

/-- Settles O46: one lemma for each pseudo-command where its sum fits. -/
theorem pseudoCommandsRealiseTheSource : Obligations.PseudoCommandsRealiseTheSource :=
  fun _ _ _ _ he hs hp hh hd => ⟨fun hfits => ⟨runEngine_csum3_of_fits he hs hp hh hd hfits,
    runEngine_verify3_of_fits he hs hp hh hd hfits⟩, fun _ => runEngine_sumwi_of_fits he hs hd⟩

/-- The sum of a header with a checksum in its field: the field is one word behind three. -/
theorem sum_words_withChecksumField {h : List Octet} (hh : h.length = 8) (c : Word) :
    ((words (withChecksumField h c)).map BitVec.toNat).sum =
      ((words (h.take 6)).map BitVec.toNat).sum + c.toNat := by
  have hsix : (h.take 6).length % 2 = 0 := by rw [length_take_six hh]
  rw [withChecksumField_eq hh, words_append_of_even _ _ hsix]
  simp [octets16, be16_extract]

/-- Writing zeros to a zeroed field changes nothing (R112). -/
theorem zeroChecksumField_of_zeroed {h : List Octet} (hh : h.length = 8) (h₆ : h[6]? = some 0x00#8)
    (h₇ : h[7]? = some 0x00#8) : zeroChecksumField h = h := by
  obtain ⟨h₆', e₆⟩ := List.getElem?_eq_some_iff.1 h₆
  obtain ⟨h₇', e₇⟩ := List.getElem?_eq_some_iff.1 h₇
  have hdrop : h.drop 6 = octets16 Config.absentSentinel := by
    rw [List.drop_eq_getElem_cons h₆', List.drop_eq_getElem_cons h₇', e₆, e₇, List.drop_of_length_le hh.le]
    rfl
  rw [zeroChecksumField, withChecksumField_eq hh, ← hdrop, List.take_append_drop]

/-- A checksum in a header's zeroed field adds itself to the sum (R109). -/
theorem sourceSum_withChecksumField (p d : List Octet) {h : List Octet} (hh : h.length = 8)
    (h₆ : h[6]? = some 0x00#8) (h₇ : h[7]? = some 0x00#8) (c : Word) :
    sourceSum p (withChecksumField h c) d = sourceSum p h d + c.toNat := by
  have hsum : ((words h).map BitVec.toNat).sum = ((words (h.take 6)).map BitVec.toNat).sum := by
    conv_lhs => rw [← zeroChecksumField_of_zeroed hh h₆ h₇, zeroChecksumField, sum_words_withChecksumField hh]
    rfl
  simp only [sourceSum_eq, spansTotal_cons, sum_words_withChecksumField hh, hsum]
  omega

/-- A header with the checksum of its own datagram in its zeroed field verifies, where the sum with it fits (R109). -/
theorem sourceVerify_withChecksumField {p h d : List Octet} (hh : h.length = 8) (h₆ : h[6]? = some 0x00#8)
    (h₇ : h[7]? = some 0x00#8)
    (hfits : sourceSum p (withChecksumField h (sourceCompute p h d)) d ≤ 0xFFFFFFFF) :
    sourceVerify p (withChecksumField h (sourceCompute p h d)) d = true := by
  have hsum := sourceSum_withChecksumField p d hh h₆ h₇ (sourceCompute p h d)
  have hmod := add_finish_fold_mod (BitVec.ofNat 32 (sourceSum p h d))
  have hpos : (sourceCompute p h d).toNat ≠ 0 := fun h => finish_ne_zero _ (BitVec.eq_of_toNat_eq h)
  have hlt : sourceSum p h d < 2 ^ 32 := by omega
  rw [BitVec.toNat_ofNat, Nat.mod_eq_of_lt hlt] at hmod
  refine (verdict_iff _).2 ?_
  rw [BitVec.toNat_ofNat, Nat.mod_eq_of_lt (Nat.lt_succ_of_le hfits), hsum]
  exact ⟨by omega, hmod⟩

/-- Settles O45: where neither run overflows, the second's sum is the first's and its checksum. -/
theorem computedChecksumVerifies : Obligations.ComputedChecksumVerifies := by
  intro s s' p h d he hs he' hs' hp hd hh h₆ h₇ t u
  have hlen := withChecksumField_length hh t.result
  refine ⟨fun ht hu => ?_, fun hp' hd' => ⟨runEngine_datagram_err he hs hp' hh hd' (.inl rfl),
    runEngine_datagram_err he' hs' hp' hlen hd' (.inr rfl)⟩⟩
  have hh' : h.length ≤ 65535 := by omega
  have hlen' : (withChecksumField h t.result).length ≤ 65535 := by omega
  have hfits := sourceSum_le_of_err he' hs' hp hlen' hd hu
  obtain ⟨-, hvok, -⟩ := runEngine_verify3_of_fits he' hs' hp hlen' hd hfits
  obtain ⟨-, hresult, -⟩ := runEngine_csum3_of_fits he hs hp hh' hd (sourceSum_le_of_err he hs hp hh' hd ht)
  have hC : t.result = sourceCompute p h d := hresult
  rw [hC] at hfits
  refine hvok.trans ?_
  rw [hC]
  exact sourceVerify_withChecksumField hh h₆ h₇ hfits

end Sys2Proof.Machine
end

section
/-! PROOFS. The two faults, exactly when each is taken and what it leaves (R121, R122), and the fault state (R123). -/

namespace Sys2Proof.Machine

variable {s t : State}

/-- What a step can leave in ERR: no fault, or one of the two with its command at the front of the stream (R121). -/
theorem step_err_cases (h : step s = .next t) :
    t.status.err = .none ∨
    (t.status.err = .illegalOpcode ∧ ∃ op r, s.stream = op :: r ∧ illegalOctet op = true) ∨
    (t.status.err = .accOverflow ∧ ∃ (o₁ o₂ : Octet) (d r : List Octet), s.stream = 0x03#8 :: o₁ :: o₂ :: (d ++ r) ∧
      d.length = o₁.toNat * 256 + o₂.toNat ∧ 0xFFFFFFFF < sumWords s.acc.toNat d) := by
  rw [step_eq_next_iff] at h
  obtain ⟨he, row⟩ := h
  cases row with
  | clr | ldacc | sumwFits | compute | verify => exact .inl he
  | sumwOverflows h hd ho => exact .inr (.inr ⟨rfl, _, _, _, _, h, hd.trans (be16_toNat _ _), ho⟩)
  | illegal h hop => exact .inr (.inl ⟨rfl, _, _, h, decide_eq_true hop⟩)

/-- The whole state that an illegal opcode octet leaves (R122), by its row of R33. -/
theorem step_illegal_state (h : step s = .next t) {op : Octet} {r : List Octet} (hs : s.stream = op :: r)
    (hop : illegalOctet op = true) :
    t = { s with status := { s.status with err := .illegalOpcode }, fop := op, pos := s.pos + 1, stream := r } := by
  obtain ⟨he, -⟩ := step_cases h
  obtain ⟨-, -, -, -, -, hrow, -⟩ := eachCommandWritesItsRow s r he
  cases h.symm.trans (hrow op hs (of_decide_eq_true hop))
  rfl

/-- The whole state that an overflowing SUMW leaves (R122), by its row of R33. -/
theorem step_overflow_state (h : step s = .next t) {o₁ o₂ : Octet} {d r : List Octet}
    (hs : s.stream = 0x03#8 :: o₁ :: o₂ :: (d ++ r)) (hd : d.length = o₁.toNat * 256 + o₂.toNat)
    (ho : 0xFFFFFFFF < sumWords s.acc.toNat d) :
    t = { s with status := { s.status with err := .accOverflow }, fop := 0x03#8,
                 pos := s.pos + (3 + d.length), stream := r } := by
  obtain ⟨he, -⟩ := step_cases h
  obtain ⟨-, -, -, -, -, -, hrow⟩ := eachCommandWritesItsRow s r he
  cases h.symm.trans (hrow o₁ o₂ d hs hd ho)
  rfl

/-- Settles O34: ERR after a step names the command in front by `step_err_cases`, and the whole states give the
converses. -/
theorem faultsExactlyAsTabled : Obligations.FaultsExactlyAsTabled := by
  intro s t h
  have hcases := step_err_cases h
  refine ⟨(step_cases h).1, ⟨fun hill => ?illegal, ?illegalBack⟩, ⟨fun hovf => ?overflow, ?overflowBack⟩,
    fun _ _ => step_illegal_state h, fun _ _ _ _ => step_overflow_state h⟩
  case illegal => simpa [hill] using hcases
  case illegalBack =>
    rintro ⟨op, r, hs, hop⟩
    rw [step_illegal_state h hs hop]
  case overflow => simpa [hovf] using hcases
  case overflowBack =>
    rintro ⟨o₁, o₂, d, r, hs, hd, ho⟩
    rw [step_overflow_state h hs hd ho]

/-- Whatever the moves but a reset, a faulted engine only gathers the appended octets (R123). -/
theorem schedule_of_faulted (he : s.status.err ≠ .none) {ms : List Move} (h : .reset ∉ ms) :
    schedule ms s = s.append (appended ms) := by
  obtain ⟨k, hk⟩ := schedule_eq_engineSteps s h
  rw [hk, engineSteps_of_no_step (no_step_of_faulted (s := s.append (appended ms)) he)]

/-- Settles O35: a faulted engine has no step, so its schedules are appends, which the window does not show. -/
theorem faultStateLastsUntilReset : Obligations.FaultStateLastsUntilReset := by
  intro s he
  refine ⟨no_step_of_faulted he, ?notSuccessful, fun ms hms => ?moves, State.reset, rfl, rfl⟩
  case notSuccessful => exact Bool.eq_false_iff.2 fun hend => he (s.endsSuccessfully_iff.1 hend).1
  case moves =>
    rw [schedule_of_faulted he hms]
    exact ⟨rfl, State.readback_congr (State.window_of_registers rfl rfl rfl rfl)⟩

end Sys2Proof.Machine
end

section
/-! PROOFS. Several instances (R129). -/

namespace Sys2Proof.Machine

/-- A move that a platform answers is the move of the instance it names, written back in its place. -/
theorem platformMove_eq_next {k : Nat} {m : Move} {p q : List State} (h : platformMove k m p = .next q) :
    ∃ s t, p[k]? = some s ∧ m.apply s = .next t ∧ q = p.set k t := by
  unfold platformMove at h
  split at h
  · cases h
  · rename_i s hs
    split at h <;> cases h
    rename_i t ht
    exact ⟨s, t, hs, ht, rfl⟩

/-- Settles O44: a platform's move writes the one place it names. -/
theorem instancesShareNothing : Obligations.InstancesShareNothing := by
  intro p q k m h
  obtain ⟨s, t, hs, ht, rfl⟩ := platformMove_eq_next h
  obtain ⟨hk, -⟩ := List.getElem?_eq_some_iff.1 hs
  exact ⟨⟨s, t, hs, ht, List.getElem?_set_self hk⟩, List.length_set, fun j hj => List.getElem?_set_ne hj.symm⟩

end Sys2Proof.Machine
end

section
/-! PROOFS. Quiescence (R149) and how the engine comes to it: alone, and in a fair infinite interleaving (R148). -/

namespace Sys2Proof.Machine

/-- Quiescence is the absence of a step (R71, R149). -/
theorem State.quiescent_iff (s : State) : s.quiescent = true ↔ ¬ ∃ t, step s = .next t := by
  rw [step_enabled_iff, State.quiescent, Bool.or_eq_true, decide_eq_true_eq, Bool.not_eq_true', not_and_or,
    Bool.not_eq_true]

/-- An engine that is not quiescent has a step. -/
theorem exists_step_of_not_quiescent {s : State} (h : s.quiescent = false) : ∃ t, step s = .next t :=
  not_not.1 fun hno => Bool.eq_false_iff.1 h (s.quiescent_iff.2 hno)

/-- A stream without octets starts with no command (R149). -/
@[simp] theorem startsComplete_nil : startsComplete [] = false := rfl

/-- Settles O15: quiescence by R71's enabled condition; without a fault, the three outcomes of a step tell the ends of a
run apart. -/
theorem quiescentExactlyWithoutAStep : Obligations.QuiescentExactlyWithoutAStep := by
  intro s
  rw [← s.quiescent_iff, ← Bool.not_eq_true s.endsSuccessfully, s.endsSuccessfully_iff, s.quiescent_iff,
    step_enabled_iff]
  by_cases he : s.status.err = .none
  · rcases step_outcomes he with ⟨hs, -⟩ | ⟨hs, hc, -⟩ | ⟨hs, hc, -⟩
    · simp [he, hs]
    · simp [he, hs, hc]
    · simp [he, hs, hc]
  · simp [he]

/-- Settles O16: after as many steps as octets there is no step left, and a run without a step left is at its end. -/
theorem engineReachesQuiescence : Obligations.EngineReachesQuiescence := fun s =>
  ⟨(runEngine s).quiescent_iff.2 (engineSteps_no_step_of_avail_le (Nat.le_refl _)),
   fun _ hn => engineSteps_eq_runEngine (engineSteps_no_step_of_avail_le hn)⟩

/-- Any move of the host but a reset appends its octets and does nothing else (R130). -/
theorem outcomeState_of_host (s : State) {m : Move} (he : m ≠ .engine) (hr : m ≠ .reset) :
    outcomeState s (m.apply s) = s.append m.octets := by
  cases m with
  | engine => exact absurd rfl he
  | append first more => rfl
  | read ks => rw [outcomeState_read]; exact s.append_nil.symm
  | reset => exact absurd rfl hr

/-- Moves of which none appends anything append nothing in sum. -/
theorem appended_eq_nil {ms : List Move} (h : ∀ m ∈ ms, m.octets = []) : appended ms = [] := by
  induction ms with
  | nil => rfl
  | cons m ms ih =>
    obtain ⟨hm, hms⟩ := List.forall_mem_cons.1 h
    rw [appended_cons, hm, ih hms, List.append_nil]

section
variable {μ : Nat → Move} {s : State}

/-- While the host alone moves, without a reset, the state gathers the appended octets (R130). -/
theorem stateAt_add_of_host {n d : Nat} (he : ∀ j < d, μ (n + j) ≠ .engine) (hr : ∀ i, μ i ≠ .reset) :
    stateAt μ s (n + d) = (stateAt μ s n).append (appended ((List.range' n d).map μ)) := by
  induction d with
  | zero => exact (State.append_nil _).symm
  | succ d ih =>
    have hd := ih fun j hj => he j (Nat.lt_succ_of_lt hj)
    rw [← Nat.add_assoc, stateAt_succ, outcomeState_of_host _ (he d d.lt_succ_self) (hr _), hd,
      State.append_append, List.range'_1_concat, List.map_append, appended_append]
    simp

/-- An enabled step waits for the engine's next move, which takes it with what the host appended meanwhile behind it
(R51, R148). -/
theorem exists_engine_takes_step (hfair : Fair μ s) (hr : ∀ i, μ i ≠ .reset) {n : Nat} {t : State}
    (hstep : step (stateAt μ s n) = .next t) :
    ∃ m, n ≤ m ∧ μ m = .engine ∧ stateAt μ s (m + 1) = t.append (appended ((List.range' n (m - n)).map μ)) := by
  have hq : (stateAt μ s n).quiescent = false :=
    Bool.eq_false_iff.2 fun hq => (State.quiescent_iff _).1 hq ⟨t, hstep⟩
  obtain ⟨m, hnm, hm⟩ := hfair n hq
  have hex : ∃ d, μ (n + d) = .engine :=
    ⟨m - n, by rw [Nat.add_sub_cancel' hnm]; exact hm.resolve_right (hr m)⟩
  have hfirst : μ (n + Nat.find hex) = .engine := Nat.find_spec hex
  have hwait := stateAt_add_of_host (s := s) (fun _ hj => Nat.find_min hex hj) hr
  refine ⟨n + Nat.find hex, Nat.le_add_right _ _, hfirst, ?_⟩
  rw [stateAt_succ, hfirst, hwait, Nat.add_sub_cancel_left]
  exact outcomeState_engine (step_append _ hstep)

section
variable {k : Nat} (hend : ∀ n, k ≤ n → (μ n).octets = [])
include hend

/-- From where appends end, moves append nothing in sum. -/
theorem appended_range'_eq_nil {n : Nat} (hn : k ≤ n) (j : Nat) : appended ((List.range' n j).map μ) = [] := by
  refine appended_eq_nil fun m hm => ?_
  obtain ⟨i, hi, rfl⟩ := List.mem_map.1 hm
  exact hend i (Nat.le_trans hn (List.mem_range'_1.1 hi).1)

/-- Where appends end, all later beginnings append the same octets. -/
theorem appended_range_of_le {n : Nat} (hn : k ≤ n) :
    appended ((List.range n).map μ) = appended ((List.range k).map μ) := by
  obtain ⟨j, rfl⟩ := Nat.exists_eq_add_of_le hn
  rw [List.range_eq_range', ← List.range'_append_1, Nat.zero_add, List.map_append, appended_append,
    appended_range'_eq_nil hend (Nat.le_refl k), List.append_nil, ← List.range_eq_range']

/-- Where appends end, a fair interleaving comes to quiescence: every step taken leaves fewer octets (R71, R148). -/
theorem exists_quiescent_of_fair (hfair : Fair μ s) (hr : ∀ i, μ i ≠ .reset) {a n : Nat} (hn : k ≤ n)
    (ha : (stateAt μ s n).avail ≤ a) : ∃ m, k ≤ m ∧ (stateAt μ s m).quiescent = true := by
  induction a generalizing n with
  | zero =>
    exact ⟨n, hn, (State.quiescent_iff _).2 (engineSteps_no_step_of_avail_le ha)⟩
  | succ a ih =>
    cases hq : (stateAt μ s n).quiescent with
    | true => exact ⟨n, hn, hq⟩
    | false =>
      obtain ⟨t, ht⟩ := exists_step_of_not_quiescent hq
      obtain ⟨m, hnm, -, hm⟩ := exists_engine_takes_step hfair hr ht
      rw [appended_range'_eq_nil hend hn, State.append_nil] at hm
      obtain ⟨j, -, hj, -, hpos, -⟩ := step_consumes ht
      have hsum := step_pos_add_avail ht
      exact ih (n := m + 1) (by omega) (by rw [hm]; omega)

/-- Where appends end, a quiescent engine stays as it is (R149). -/
theorem stateAt_eq_of_quiescent (hr : ∀ i, μ i ≠ .reset) {m n : Nat} (hm : k ≤ m)
    (hq : (stateAt μ s m).quiescent = true) (hmn : m ≤ n) : stateAt μ s n = stateAt μ s m := by
  induction n, hmn using Nat.le_induction with
  | base => rfl
  | succ n hmn ih =>
    rw [stateAt_succ, ih]
    by_cases he : μ n = .engine
    · rw [he, outcomeState_engine_of_no_step (no_step_of_quiescent hq)]
    · rw [outcomeState_of_host _ he (hr n), hend n (Nat.le_trans hm hmn), State.append_nil]

end

end

/-- Settles O54: the engine's next move takes a waiting step; where appends end these steps use up the octets, and a
quiescent engine is where it ends when given all octets (O43). -/
theorem fairRunsTakeEveryEnabledStep : Obligations.FairRunsTakeEveryEnabledStep := by
  intro μ s hfair hr
  refine ⟨fun n t hstep => exists_engine_takes_step hfair hr hstep, fun k hend => ?_⟩
  obtain ⟨m, hkm, hq⟩ := exists_quiescent_of_fair hend hfair hr (Nat.le_refl k) (Nat.le_refl _)
  refine ⟨m, fun n hmn => ?_⟩
  have hqn : (stateAt μ s n).quiescent = true := by rwa [stateAt_eq_of_quiescent hend hr hkm hq hmn]
  have hno : .reset ∉ (List.range n).map μ := by simp [hr]
  refine ⟨hqn, ?_⟩
  rw [stateAt_eq_schedule] at hqn ⊢
  rw [← appended_range_of_le hend (Nat.le_trans hkm hmn)]
  exact ((readsShowAGrowingPrefix s _ [] hno List.not_mem_nil).2 hqn).1

/-- Behind its list of moves, `thenEngine` lets the engine move (R148). -/
theorem thenEngine_of_le {ms : List Move} {n : Nat} (h : ms.length ≤ n) : thenEngine ms n = .engine :=
  List.getD_eq_default _ _ h

/-- `thenEngine` begins with its list of moves. -/
theorem map_thenEngine_range (ms : List Move) : (List.range ms.length).map (thenEngine ms) = ms := by
  refine List.ext_getElem (by simp) fun n _ hn => ?_
  rw [List.getElem_map, List.getElem_range, thenEngine, List.getD_eq_getElem _ _ hn]

/-- Settles O55: behind the list every move is the engine's, and the moves before that are the list's. -/
theorem everyScheduleExtendsFairly : Obligations.EveryScheduleExtendsFairly := by
  intro s ms
  refine ⟨fun n _ => ?fair, fun n m h => ?begins, ?passes⟩
  case fair => exact ⟨max n ms.length, le_max_left .., .inl (thenEngine_of_le (le_max_right ..))⟩
  case begins => rw [thenEngine, List.getD_eq_getElem?_getD, h, Option.getD_some]
  case passes => rw [stateAt_eq_schedule, map_thenEngine_range]

end Sys2Proof.Machine
end
